-- ==== Sys2Proof/Word.lean ====
section
/-! DEFINITION. The bit-vector types the spec gives widths to (R7: every register and field is an unsigned
integer of its stated width; a byte is 8 bits). -/

namespace Sys2Proof

/-- A byte (R7). -/
abbrev Byte := BitVec 8

/-- The `length` field and the timer (R10: 16 bits). -/
abbrev Half := BitVec 16

/-- The `checksum` field and the checksum unit's accumulator (R10, R91: 32 bits). -/
abbrev Word := BitVec 32

/-- The byte counter (R10: 64 bits). -/
abbrev Count := BitVec 64

end Sys2Proof
end

