-- ==== Sys2Proof/Syntax.lean ====
section
/-! DEFINITION. The instructions: one constructor per row of spec/opcode_table.json. The block has no
instruction set (R1); its table lists five transmit packet kinds (format TXHDR56, R66), five received header
classes (RXHDR56, R67) and the eight step kinds the state register selects (ST3, R70). A packet row's operands
are the header fields its flags byte leaves open (R61). -/

namespace Sys2Proof

/-- One row of the opcode table. `checksum` is header bits 55:24, `length` bits 23:8, `flags` bits 7:0 (R61). -/
inductive Instr where
  /-- FNAME, transmit, flags 0x01 (R66). -/
  | fname (checksum : Word) (length : Half)
  /-- DATA.A, transmit, flags 0x02 (R66). -/
  | dataA (checksum : Word) (length : Half)
  /-- DATA, transmit, flags 0x00 (R66). -/
  | data (checksum : Word) (length : Half)
  /-- DATA.AF, transmit, flags 0x06 (R66). -/
  | dataAF (checksum : Word) (length : Half)
  /-- DATA.F, transmit, flags 0x04 (R66). -/
  | dataF (checksum : Word) (length : Half)
  /-- ACK, receive, flags 0x00 (R67). -/
  | ack (checksum : Word) (length : Half)
  /-- ACK.A, receive, flags 0x02 (R67). -/
  | ackA (checksum : Word) (length : Half)
  /-- ACK.F, receive, flags 0x04 (R67). -/
  | ackF (checksum : Word) (length : Half)
  /-- ACK.AF, receive, flags 0x06 (R67). -/
  | ackAF (checksum : Word) (length : Half)
  /-- RX.OTHER, receive, any other flags value (R67). -/
  | rxOther (checksum : Word) (length : Half) (flags : Byte)
  /-- STEP.IDLE, state code 0 (R70). -/
  | stepIdle
  /-- STEP.SEND_FILENAME, state code 1 (R70). -/
  | stepSendFilename
  /-- STEP.WAIT_FILENAME_ACK, state code 2 (R70). -/
  | stepWaitFilenameAck
  /-- STEP.LOAD_DATA, state code 3 (R70). -/
  | stepLoadData
  /-- STEP.SEND_DATA, state code 4 (R70). -/
  | stepSendData
  /-- STEP.WAIT_DATA_ACK, state code 5 (R70). -/
  | stepWaitDataAck
  /-- STEP.TERMINATED, state code 6 (R70). -/
  | stepTerminated
  /-- STEP.FATAL, state code 7 (R70). -/
  | stepFatal
  deriving DecidableEq, Repr

end Sys2Proof
end

