-- ==== Sys2Proof/Machine/State.lean ====
section
/-! DEFINITION. The machine's state as plain data (10_state.md): the tuple of R10, the events of the ports
(R28), the two reasons a step can stop, and the state after reset (R34, R170). -/

namespace Sys2Proof.Machine

/-- The FSM states (R11); their 3-bit codes are `Fsm.code` in Machine/Flags.lean. -/
inductive Fsm where
  | idle | sendFilename | waitFilenameAck | loadData | sendData | waitDataAck | terminated | fatal
  deriving DecidableEq, Repr

/-- The input events of R28. A byte count `n` or `m` of the spec is the length of the list. -/
inductive Event where
  /-- `reset` (R33, R170). -/
  | reset
  /-- `cmd.START(fname, n)` (R29). -/
  | start (fname : List Byte)
  /-- `src.CHUNK(data, n, eof)` (R30). -/
  | chunk (data : List Byte) (eof : Bool)
  /-- `src.ERR` (R30). -/
  | srcErr
  /-- `tx.OK` (R31). -/
  | txOk
  /-- `tx.ERR` (R31). -/
  | txErr
  /-- `rx.DGRAM(bytes, m)` (R32). -/
  | dgram (bytes : List Byte)
  /-- `rx.ERR` (R32). -/
  | rxErr
  /-- `tick` (R33). -/
  | tick
  deriving DecidableEq, Repr

/-- The events the environment presents in one cycle (R160); usually one. -/
abbrev Offer := List Event

/-- The output events of R28 and R31. -/
inductive OutEvent where
  /-- `tx.SEND(bytes)!`: the datagram that leaves the block (R31, R125, R133). -/
  | txSend (bytes : List Byte)
  /-- The pulse `ev_bad_ack(flags)!` (R33, R109). -/
  | evBadAck (flags : Byte)
  deriving DecidableEq, Repr

/-- The causes of a fatal error (R151). -/
inductive FatalCause where
  | txErr | rxErr | srcErr
  deriving DecidableEq, Repr

/-- The two storage spaces (R23). -/
inductive Space where
  | tx | rxh
  deriving DecidableEq, Repr

/-- A buffer's written bytes, as (address, byte) pairs, addresses strictly rising. An address not listed holds
no value (R24, R25, R34). -/
abbrev Memory := List Host.Cell

/-- Why a step stops with a fault. No state reachable from reset reaches one. -/
inductive Fault where
  /-- A read of a buffer byte that holds no value (R24, R25; U6: a model must find no read of it). Raised by
  MemRead alone. Safe: the machine stops where the spec gives no value. -/
  | noValue (space : Space) (addr : Nat)
  /-- A read at an address the buffer does not have (R23: TX is 0 .. 511, RXH is 0 .. 6). Raised by MemRead
  alone. Safe. -/
  | noSuchAddress (space : Space) (addr : Nat)
  deriving DecidableEq, Repr

/-- Why a step is refused. -/
inductive Refusal where
  /-- An instruction without a meaning, raised by exec's arm of that name; no arm raises it. Safe. -/
  | notModelled (mnemonic : String)
  deriving DecidableEq, Repr

/-- The state. The fields to `rxh` are the tuple of R10; `inputs` and `out` are the model's own (log entries 1
and 3): what the environment goes on to present, and the output events of the last step. -/
structure State where
  /-- FSM state register (R11). -/
  st        : Fsm
  /-- The internal alternating bit (R12). -/
  toggle    : BitVec 1
  /-- `length` of the packet in TX (R13). -/
  hdrLen    : Half
  /-- `flags` of the packet in TX (R14). -/
  hdrFlags  : Byte
  /-- `checksum` of the packet in TX (R15). -/
  hdrCsum   : Word
  /-- The waiter's expected flags (R16). -/
  expFlags  : Byte
  /-- Acknowledged payload bytes (R17). -/
  bytesSent : Count
  /-- Ticks left in the current wait (R18). -/
  waitTimer : Half
  /-- Cause of the fatal error (R19). -/
  errCause  : BitVec 3
  /-- The packet buffer, 512 bytes (R23, R24). -/
  tx        : Memory
  /-- The receive header buffer, 7 bytes (R23, R25). -/
  rxh       : Memory
  /-- MODEL'S OWN: the offers of the coming cycles, the next one first. -/
  inputs    : List Offer
  /-- MODEL'S OWN: the output events of the step that led here. -/
  out       : List OutEvent
  deriving DecidableEq, Repr

/-- The state after `reset` (R34, R170): no byte of either buffer holds a value, nothing is presented. -/
def State.reset : State where
  st        := .idle
  toggle    := 0
  hdrLen    := 0
  hdrFlags  := 0
  hdrCsum   := 0
  expFlags  := 0
  bytesSent := 0
  waitTimer := 0
  errCause  := 0
  tx        := []
  rxh       := []
  inputs    := []
  out       := []

end Sys2Proof.Machine
end

