-- ==== Sys2Proof/Config.lean ====
section
/-! DEFINITION. The parameters of R5 and R6 (00_scope.md) under the spec's own names, each with the value the
spec's rules use (log entry 13). Parameters are not state (R10). -/

namespace Sys2Proof

/-- What a datagram shorter than the header does in a wait: the parameter `SHORT_DGRAM` of D10 and U9. -/
inductive ShortDgram where
  | discard | retry | fatal
  deriving DecidableEq, Repr

namespace Config

/-- `PKT_MAX` (R5), bytes. -/
def pktMax : Nat := 512
/-- `CSUM_BYTES` (R5). -/
def csumBytes : Nat := 4
/-- `LEN_BYTES` (R5). -/
def lenBytes : Nat := 2
/-- `FLAGS_BYTES` (R6, D1). -/
def flagsBytes : Nat := 1
/-- `HEADER_LENGTH = CSUM_BYTES + LEN_BYTES + FLAGS_BYTES` (R6). -/
def headerLength : Nat := csumBytes + lenBytes + flagsBytes
/-- `MAX_PAYLOAD = PKT_MAX - HEADER_LENGTH` (R5). -/
def maxPayload : Nat := pktMax - headerLength

/-- `F_FILENAME` (R6, D2). -/
def fFilename : Byte := 0x01#8
/-- `F_ALTERNATING` (R6, D2). -/
def fAlternating : Byte := 0x02#8
/-- `F_FIN` (R6, D2). -/
def fFin : Byte := 0x04#8
/-- `ALT_WHEN_TOGGLE_0` (R6, D4): ALTERNATING is present iff `toggle = 0`. -/
def altWhenToggle0 : Bool := true

/-- `CRC_POLY` (R5), the feedback constant of the right-shifting algorithm (R90, D3). -/
def crcPoly : Word := 0xD5828281#32
/-- `CRC_INIT` (R6, D3). -/
def crcInit : Word := 0xFFFFFFFF#32
/-- `CRC_XOROUT` (R6, D3). -/
def crcXorOut : Word := 0xFFFFFFFF#32

/-- `T_ACK_MS` (R5), milliseconds. -/
def tAckMs : Nat := 500
/-- `T_CONNECT_MS` (R5), milliseconds; no rule reads it (R113). -/
def tConnectMs : Nat := 5000
/-- `TICK_MS` (R6, D8), milliseconds of one tick. -/
def tickMs : Nat := 1
/-- `T_ACK_TICKS = T_ACK_MS / TICK_MS` (R6). -/
def tAckTicks : Nat := tAckMs / tickMs
/-- `TIMER_WIDTH` (R6, D8), bits. -/
def timerWidth : Nat := 16
/-- `BYTES_SENT_WIDTH` (R6, D14), bits. -/
def bytesSentWidth : Nat := 64

/-- `SHORT_DGRAM` (D10, U9) at the value R106 states: discarded, the wait goes on. -/
def shortDgram : ShortDgram := .discard

end Config

end Sys2Proof
end

