-- ==== Sys2Proof/WellFormed.lean ====
section
/-! DEFINITION. Which instructions are well formed: a transmit header's `length` is 0 .. MAX_PAYLOAD (R62, R68);
RX.OTHER stands for the flags values no other receive row has (R67). Every received length is legal (R62, R68)
and the step kinds have no operand. -/

namespace Sys2Proof

/-- R62: on transmit the payload byte count is 0 .. MAX_PAYLOAD. -/
def txLengthOk (length : Half) : Bool := decide (length.toNat ≤ Config.maxPayload)

/-- R67: the flags values that only RX.OTHER has. -/
def rxOtherFlagsOk (flags : Byte) : Bool :=
  decide (flags ≠ 0x00#8 ∧ flags ≠ 0x02#8 ∧ flags ≠ 0x04#8 ∧ flags ≠ 0x06#8)

/-- The check of one instruction. -/
def Instr.wf : Instr → Bool
  | .fname _ l => txLengthOk l
  | .dataA _ l => txLengthOk l
  | .data _ l => txLengthOk l
  | .dataAF _ l => txLengthOk l
  | .dataF _ l => txLengthOk l
  | .ack _ _ => true
  | .ackA _ _ => true
  | .ackF _ _ => true
  | .ackAF _ _ => true
  | .rxOther _ _ f => rxOtherFlagsOk f
  | .stepIdle => true
  | .stepSendFilename => true
  | .stepWaitFilenameAck => true
  | .stepLoadData => true
  | .stepSendData => true
  | .stepWaitDataAck => true
  | .stepTerminated => true
  | .stepFatal => true

end Sys2Proof
end

