-- ==== Sys2Proof/Decode.lean ====
section
/-! DEFINITION. The Header Codec (40_header_codec.md: ENCODE, DECODE) and, over it, the decoder and encoder of
the opcode table (30_encoding.md). Bits do not say which direction a header goes or that a byte is a state code
(R66, R67, R70): the decoder takes the format, which the machine's state supplies. -/

namespace Sys2Proof

/-! ## Header Codec -/

/-- A header value (R80). -/
structure Header where
  checksum : Word
  length   : Half
  flags    : Byte
  deriving DecidableEq, Repr

/-- A byte string of exactly HEADER_LENGTH = 7 bytes, `b0` first on the wire (R80, R84: a wrong size is a type
error, not a run-time case). -/
structure HeaderBytes where
  b0 : Byte
  b1 : Byte
  b2 : Byte
  b3 : Byte
  b4 : Byte
  b5 : Byte
  b6 : Byte
  deriving DecidableEq, Repr

/-- The seven bytes as a byte string, index 0 first (R7). -/
def HeaderBytes.toList (b : HeaderBytes) : List Byte := [b.b0, b.b1, b.b2, b.b3, b.b4, b.b5, b.b6]

/-- `to_be32` (R7): the most significant byte first. -/
def toBe32 (v : Word) : List Byte :=
  [v.extractLsb' 24 8, v.extractLsb' 16 8, v.extractLsb' 8 8, v.extractLsb' 0 8]

/-- `to_be16` (R7). -/
def toBe16 (v : Half) : List Byte := [v.extractLsb' 8 8, v.extractLsb' 0 8]

/-- ENCODE (R81). -/
def encodeHeader (h : Header) : HeaderBytes where
  b0 := h.checksum.extractLsb' 24 8
  b1 := h.checksum.extractLsb' 16 8
  b2 := h.checksum.extractLsb' 8 8
  b3 := h.checksum.extractLsb' 0 8
  b4 := h.length.extractLsb' 8 8
  b5 := h.length.extractLsb' 0 8
  b6 := h.flags

/-- DECODE (R82): `be32(b[0:4])`, `be16(b[4:6])`, `b[6]`. -/
def decodeHeader (b : HeaderBytes) : Header where
  checksum := b.b0 ++ b.b1 ++ b.b2 ++ b.b3
  length   := b.b4 ++ b.b5
  flags    := b.b6

/-- The first HEADER_LENGTH bytes of a byte string, and the rest; none if it is shorter (R84, R106, R107: the
caller cuts the string to seven bytes). -/
def splitHeader : List Byte → Option (HeaderBytes × List Byte)
  | b0 :: b1 :: b2 :: b3 :: b4 :: b5 :: b6 :: rest => some (⟨b0, b1, b2, b3, b4, b5, b6⟩, rest)
  | _ => none

/-- The header value at the front of a byte string of at least seven bytes (R107). -/
def headerOf (bs : List Byte) : Option Header := (splitHeader bs).map fun r => decodeHeader r.1

/-! ## The opcode table -/

/-- The formats of R60. -/
inductive Format where
  | txHdr56 | rxHdr56 | st3
  deriving DecidableEq, Repr

/-- Why bits are no instruction of a format. -/
inductive DecodeError where
  /-- Fewer bytes than the format has (R68: a datagram shorter than 7 bytes is not a header at all). -/
  | tooShort
  /-- A flags value the engine never sends (R66, R68). -/
  | notTransmitKind (flags : Byte)
  /-- A byte with a bit set above the 3-bit state code (R60, R70). -/
  | notStateCode (b : Byte)
  deriving DecidableEq, Repr

/-- R66: the kind of a sent packet is decided by `flags` alone. -/
def decodeTx (h : Header) : Except DecodeError Instr :=
  if h.flags = 0x01#8 then .ok (.fname h.checksum h.length)
  else if h.flags = 0x02#8 then .ok (.dataA h.checksum h.length)
  else if h.flags = 0x00#8 then .ok (.data h.checksum h.length)
  else if h.flags = 0x06#8 then .ok (.dataAF h.checksum h.length)
  else if h.flags = 0x04#8 then .ok (.dataF h.checksum h.length)
  else .error (.notTransmitKind h.flags)

/-- R67, R68: every received header is legal; RX.OTHER is the fallback. -/
def decodeRx (h : Header) : Instr :=
  if h.flags = 0x00#8 then .ack h.checksum h.length
  else if h.flags = 0x02#8 then .ackA h.checksum h.length
  else if h.flags = 0x04#8 then .ackF h.checksum h.length
  else if h.flags = 0x06#8 then .ackAF h.checksum h.length
  else .rxOther h.checksum h.length h.flags

/-- R70: the eight state codes, all used. -/
def decodeSt (code : BitVec 3) : Instr :=
  match code.toNat with
  | 0 => .stepIdle
  | 1 => .stepSendFilename
  | 2 => .stepWaitFilenameAck
  | 3 => .stepLoadData
  | 4 => .stepSendData
  | 5 => .stepWaitDataAck
  | 6 => .stepTerminated
  | _ => .stepFatal

/-- A state code laid out as a byte: the code in bits 2:0 (DESIGN CHOICE, log entry 15). -/
def decodeStByte (b : Byte) : Except DecodeError Instr :=
  if b.toNat < 8 then .ok (decodeSt (BitVec.ofNat 3 b.toNat)) else .error (.notStateCode b)

/-- The decoder: the instruction of the given format at the front of a byte string, and the rest. -/
def decode (f : Format) (bs : List Byte) : Except DecodeError (Instr × List Byte) :=
  match f with
  | .st3 =>
    match bs with
    | [] => .error .tooShort
    | b :: rest =>
      match decodeStByte b with
      | .ok i => .ok (i, rest)
      | .error e => .error e
  | .txHdr56 =>
    match splitHeader bs with
    | none => .error .tooShort
    | some (b, rest) =>
      match decodeTx (decodeHeader b) with
      | .ok i => .ok (i, rest)
      | .error e => .error e
  | .rxHdr56 =>
    match splitHeader bs with
    | none => .error .tooShort
    | some (b, rest) => .ok (decodeRx (decodeHeader b), rest)

/-! ## The encoder -/

/-- The format of a row (the table's `format`). -/
def Instr.format : Instr → Format
  | .fname _ _ => .txHdr56
  | .dataA _ _ => .txHdr56
  | .data _ _ => .txHdr56
  | .dataAF _ _ => .txHdr56
  | .dataF _ _ => .txHdr56
  | .ack _ _ => .rxHdr56
  | .ackA _ _ => .rxHdr56
  | .ackF _ _ => .rxHdr56
  | .ackAF _ _ => .rxHdr56
  | .rxOther _ _ _ => .rxHdr56
  | .stepIdle => .st3
  | .stepSendFilename => .st3
  | .stepWaitFilenameAck => .st3
  | .stepLoadData => .st3
  | .stepSendData => .st3
  | .stepWaitDataAck => .st3
  | .stepTerminated => .st3
  | .stepFatal => .st3

/-- The header of a transmit row (R66); none for the others. -/
def Instr.txHeader : Instr → Option Header
  | .fname c l => some ⟨c, l, 0x01#8⟩
  | .dataA c l => some ⟨c, l, 0x02#8⟩
  | .data c l => some ⟨c, l, 0x00#8⟩
  | .dataAF c l => some ⟨c, l, 0x06#8⟩
  | .dataF c l => some ⟨c, l, 0x04#8⟩
  | _ => none

/-- The header of a receive row (R67); none for the others. -/
def Instr.rxHeader : Instr → Option Header
  | .ack c l => some ⟨c, l, 0x00#8⟩
  | .ackA c l => some ⟨c, l, 0x02#8⟩
  | .ackF c l => some ⟨c, l, 0x04#8⟩
  | .ackAF c l => some ⟨c, l, 0x06#8⟩
  | .rxOther c l f => some ⟨c, l, f⟩
  | _ => none

/-- The words of an instruction, from the same tables (R66, R67, R70): a header's seven bytes, or one byte that
holds the state code. -/
def encode : Instr → List Byte
  | .fname c l => (encodeHeader ⟨c, l, 0x01#8⟩).toList
  | .dataA c l => (encodeHeader ⟨c, l, 0x02#8⟩).toList
  | .data c l => (encodeHeader ⟨c, l, 0x00#8⟩).toList
  | .dataAF c l => (encodeHeader ⟨c, l, 0x06#8⟩).toList
  | .dataF c l => (encodeHeader ⟨c, l, 0x04#8⟩).toList
  | .ack c l => (encodeHeader ⟨c, l, 0x00#8⟩).toList
  | .ackA c l => (encodeHeader ⟨c, l, 0x02#8⟩).toList
  | .ackF c l => (encodeHeader ⟨c, l, 0x04#8⟩).toList
  | .ackAF c l => (encodeHeader ⟨c, l, 0x06#8⟩).toList
  | .rxOther c l f => (encodeHeader ⟨c, l, f⟩).toList
  | .stepIdle => [0#8]
  | .stepSendFilename => [1#8]
  | .stepWaitFilenameAck => [2#8]
  | .stepLoadData => [3#8]
  | .stepSendData => [4#8]
  | .stepWaitDataAck => [5#8]
  | .stepTerminated => [6#8]
  | .stepFatal => [7#8]

/-! ## The host's words -/

/-- The header whose 56-bit number (R61: bit 55 is bit 7 of wire byte 0, bit 0 is bit 0 of wire byte 6) is `w`. -/
def headerOfWord (w : Nat) : Header :=
  ⟨BitVec.ofNat 32 (w / 2 ^ 24), BitVec.ofNat 16 (w / 2 ^ 8), BitVec.ofNat 8 w⟩

/-- The seven wire bytes of the 56-bit number `w`, first byte first (R61). -/
def bytesOfWord (w : Nat) : List Byte :=
  [BitVec.ofNat 8 (w / 2 ^ 48), BitVec.ofNat 8 (w / 2 ^ 40), BitVec.ofNat 8 (w / 2 ^ 32), BitVec.ofNat 8 (w / 2 ^ 24),
    BitVec.ofNat 8 (w / 2 ^ 16), BitVec.ofNat 8 (w / 2 ^ 8), BitVec.ofNat 8 w]

/-- The instruction of a byte string read as a format, without the rest. -/
def decodeOnly (f : Format) (bs : List Byte) : Option Instr :=
  match decode f bs with
  | .ok (i, _) => some i
  | .error _ => none

/-- A table word: up to 8 bits are a state code, up to 56 bits a header. DESIGN CHOICE (log entry 4): the bits do
not carry the direction, so a flags value of a transmit row is read as that row, any other as RX.OTHER. -/
def decodeTableWord (nbits w : Nat) : Option Instr :=
  if nbits ≤ 8 then
    if w < 2 ^ 8 then decodeOnly .st3 [BitVec.ofNat 8 w] else none
  else if nbits ≤ 56 then
    if w < 2 ^ 56 then
      match decodeOnly .txHdr56 (bytesOfWord w) with
      | some i => some i
      | none => decodeOnly .rxHdr56 (bytesOfWord w)
    else none
  else none

end Sys2Proof
end

