-- ==== Sys2Proof/Machine/Checksum.lean ====
section
/-! DEFINITION. The checksum unit (41_packet_assembler.md section 1): `crc_byte` (R91), `CRC32` (R92), and the
two equivalent forms of R93. -/

namespace Sys2Proof.Machine

/-- One shift of the accumulator (R91). -/
def crcShift (c : Word) : Word :=
  if c.getLsbD 0 then (c >>> 1) ^^^ Config.crcPoly else c >>> 1

/-- `n` shifts. -/
def crcShifts : Nat → Word → Word
  | 0, c => c
  | n + 1, c => crcShifts n (crcShift c)

/-- `crc_byte(c, b)` (R91): bit 0 of the byte is consumed first. -/
def crcByte (c : Word) (b : Byte) : Word := crcShifts 8 (c ^^^ b.setWidth 32)

/-- The accumulator after a byte string (R92's loop). -/
def crcBytes (c : Word) (s : List Byte) : Word := s.foldl crcByte c

/-- `CRC32(s)` (R92). -/
def crc32 (s : List Byte) : Word := crcBytes Config.crcInit s ^^^ Config.crcXorOut

/-- The table `T[i]` of R93. -/
def crcTable (i : Byte) : Word := crcShifts 8 (i.setWidth 32)

/-- The table form of `crc_byte` (R93). -/
def crcByteTable (c : Word) (b : Byte) : Word := crcTable ((c ^^^ b.setWidth 32).setWidth 8) ^^^ (c >>> 8)

/-- The reversed polynomial `0x814141AB` of the most-significant-bit-first form (R93). -/
def crcPolyMsb : Word := 0x814141AB#32

/-- One left shift of the most-significant-bit-first form (R93). -/
def crcShiftMsb (c : Word) : Word :=
  if c.getLsbD 31 then (c <<< 1) ^^^ crcPolyMsb else c <<< 1

/-- `n` left shifts. -/
def crcShiftsMsb : Nat → Word → Word
  | 0, c => c
  | n + 1, c => crcShiftsMsb n (crcShiftMsb c)

/-- One byte of the most-significant-bit-first form: the reflected byte enters at the top (R93). -/
def crcByteMsb (c : Word) (b : Byte) : Word := crcShiftsMsb 8 (c ^^^ (b.reverse.setWidth 32 <<< 24))

/-- The most-significant-bit-first form of `CRC32` (R93). -/
def crc32Msb (s : List Byte) : Word := (s.foldl crcByteMsb 0xFFFFFFFF#32).reverse ^^^ 0xFFFFFFFF#32

end Sys2Proof.Machine
end

