-- ==== Sys2Proof/Machine/Ops.lean ====
section
/-! DEFINITION. The named operations over the buffers (MemRead, MemWrite of R7; R23 to R25, R44) and over the
registers: the fatal entry (R156) and reset (R170), which is the only return from it (R158). -/

namespace Sys2Proof.Machine

/-- What a step answers. -/
abbrev Result := Host.Outcome State Fault Refusal

/-! ## Buffers -/

/-- The number of addresses of a space (R23). -/
def Space.size : Space → Nat
  | .tx => Config.pktMax
  | .rxh => Config.headerLength

/-- The byte an address holds; none where it holds no value (R24, R25). -/
def Memory.byte : Memory → Nat → Option Byte
  | [], _ => none
  | (k, v) :: rest, a => if k = a then some v else Memory.byte rest a

/-- The cells of a byte string placed at an address. -/
def Memory.cellsAt (a : Nat) : List Byte → Memory
  | [] => []
  | b :: bs => (a, b) :: Memory.cellsAt (a + 1) bs

/-- `MemWrite(space, addr, n, b)` (R7), `n` the length of `bs`. -/
def Memory.write (m : Memory) (a : Nat) (bs : List Byte) : Memory :=
  m.filter (fun c => decide (c.1 < a)) ++ Memory.cellsAt a bs ++ m.filter (fun c => decide (a + bs.length ≤ c.1))

/-- The canonical form: addresses strictly rising, each one of the space's. -/
abbrev Memory.wf (sp : Space) (m : Memory) : Prop :=
  List.Pairwise (fun x y : Host.Cell => x.1 < y.1) m ∧ ∀ c ∈ m, c.1 < sp.size

/-- One byte of a space, or the fault that says why there is none (log entry 6). -/
def readByte (sp : Space) (m : Memory) (a : Nat) : Except Fault Byte :=
  if a < sp.size then
    match m.byte a with
    | some b => .ok b
    | none => .error (.noValue sp a)
  else .error (.noSuchAddress sp a)

/-- `MemRead(space, addr, n)` (R7). -/
def memRead (sp : Space) (m : Memory) (a : Nat) : Nat → Except Fault (List Byte)
  | 0 => .ok []
  | n + 1 =>
    match readByte sp m a with
    | .error f => .error f
    | .ok b =>
      match memRead sp m (a + 1) n with
      | .error f => .error f
      | .ok bs => .ok (b :: bs)

/-! ## The packet in TX -/

/-- `tx_len = HEADER_LENGTH + hdr_len` (R26). -/
def State.txLen (s : State) : Nat := Config.headerLength + s.hdrLen.toNat

/-- `tx_data = TX[0 : tx_len]` (R28), the datagram of the packet in TX. -/
def State.txData (s : State) : Except Fault (List Byte) := memRead .tx s.tx 0 s.txLen

/-! ## Fatal entry and reset -/

/-- The cause codes (R19, R151). -/
def FatalCause.code : FatalCause → BitVec 3
  | .txErr => 1#3
  | .rxErr => 2#3
  | .srcErr => 3#3

/-- `raise Fatal(cause)`, the fatal-entry sequence (R156); nothing else is written (R157). -/
def raiseFatal (cause : FatalCause) (s : State) : State :=
  { s with errCause := cause.code, waitTimer := 0, st := .fatal }

/-- The `reset` event (R170): every register as `State.reset` has it and no byte of the buffers with a value.
What the environment goes on to present is not the block's. -/
def resetEngine (s : State) : State := { State.reset with inputs := s.inputs }

end Sys2Proof.Machine
end

