-- ==== Sys2Proof/Machine/Flags.lean ====
section
/-! DEFINITION. Everything the spec computes from `st` or puts in a flags byte: the state codes (R11), the
derived status bits and port levels (R20, R28), the status view (R21), and the flags of a data packet (R65,
R131). -/

namespace Sys2Proof.Machine

/-! ## State codes -/

/-- The 3-bit codes (R11). -/
def Fsm.code : Fsm → BitVec 3
  | .idle => 0#3
  | .sendFilename => 1#3
  | .waitFilenameAck => 2#3
  | .loadData => 3#3
  | .sendData => 4#3
  | .waitDataAck => 5#3
  | .terminated => 6#3
  | .fatal => 7#3

/-- The state of a code; no code is illegal (R11). -/
def Fsm.ofCode (c : BitVec 3) : Fsm :=
  match c.toNat with
  | 0 => .idle
  | 1 => .sendFilename
  | 2 => .waitFilenameAck
  | 3 => .loadData
  | 4 => .sendData
  | 5 => .waitDataAck
  | 6 => .terminated
  | _ => .fatal

/-- The SEND states (R9). -/
def Fsm.isSend : Fsm → Bool
  | .sendFilename => true
  | .sendData => true
  | _ => false

/-- The WAIT states (R9). -/
def Fsm.isWait : Fsm → Bool
  | .waitFilenameAck => true
  | .waitDataAck => true
  | _ => false

/-- The absorbing states (R9). -/
def Fsm.isAbsorbing : Fsm → Bool
  | .terminated => true
  | .fatal => true
  | _ => false

/-! ## Derived status bits and port levels -/

/-- `busy` (R20). -/
def State.busy (s : State) : Bool := !(s.st = .idle || s.st.isAbsorbing)
/-- `done` (R20). -/
def State.done (s : State) : Bool := s.st = .terminated
/-- `fatal` (R20). -/
def State.fatal (s : State) : Bool := s.st = .fatal
/-- `cmd_ready` (R28). -/
def State.cmdReady (s : State) : Bool := s.st = .idle
/-- `src_req` (R28). -/
def State.srcReq (s : State) : Bool := s.st = .loadData
/-- `tx_valid` (R28). -/
def State.txValid (s : State) : Bool := s.st.isSend
/-- `rx_ready` (R28). -/
def State.rxReady (s : State) : Bool := s.st.isWait
/-- `closed` (R28, R33). -/
def State.closed (s : State) : Bool := s.st.isAbsorbing

/-- The read-only status view (R21), with the port levels of R28. -/
structure Status where
  st        : BitVec 3
  busy      : Bool
  done      : Bool
  fatal     : Bool
  cmdReady  : Bool
  txValid   : Bool
  rxReady   : Bool
  srcReq    : Bool
  closed    : Bool
  errCause  : BitVec 3
  toggle    : BitVec 1
  bytesSent : Count
  hdrLen    : Half
  hdrFlags  : Byte
  hdrCsum   : Word
  expFlags  : Byte
  waitTimer : Half
  txLen     : Nat
  /-- `RXH[6]`, no value before the first datagram of sufficient length (R21). -/
  rxFlags   : Option Byte
  deriving DecidableEq, Repr

/-- The host reads the status view (R21, R146): no side effect. -/
def State.status (s : State) : Status where
  st        := s.st.code
  busy      := s.busy
  done      := s.done
  fatal     := s.fatal
  cmdReady  := s.cmdReady
  txValid   := s.txValid
  rxReady   := s.rxReady
  srcReq    := s.srcReq
  closed    := s.closed
  errCause  := s.errCause
  toggle    := s.toggle
  bytesSent := s.bytesSent
  hdrLen    := s.hdrLen
  hdrFlags  := s.hdrFlags
  hdrCsum   := s.hdrCsum
  expFlags  := s.expFlags
  waitTimer := s.waitTimer
  txLen     := s.txLen
  rxFlags   := s.rxh.byte 6

/-! ## Wire flags -/

/-- Whether ALTERNATING is present: the complement of the toggle (R131, D4). -/
def alternatingPresent (toggle : BitVec 1) : Bool :=
  if Config.altWhenToggle0 then toggle = 0#1 else toggle = 1#1

/-- The flags of a data packet (R131): ALTERNATING by the toggle, FIN by `eof`. -/
def dataFlags (toggle : BitVec 1) (eof : Bool) : Byte :=
  (if alternatingPresent toggle then Config.fAlternating else 0x00#8) ||| (if eof then Config.fFin else 0x00#8)

/-- Whether a flags byte carries FIN: `hdr_flags[2] = 1` in R135. -/
def hasFin (flags : Byte) : Bool := flags &&& Config.fFin ≠ 0x00#8

end Sys2Proof.Machine
end

