-- ==== Sys2Proof/Machine/Operands.lean ====
section
/-! DEFINITION. A step's operands: the event it takes from what the environment presents (R28 to R33; R160 for
events presented together), and the header a transmit or receive step handles (R66, R67). -/

namespace Sys2Proof.Machine

/-! ## The event of a step -/

/-- Whether a port accepts an event in a state (R28 to R33, R70, R121). An event it does not accept is refused
(R9). -/
def accepts (st : Fsm) : Event → Bool
  | .reset => true
  | .tick => true
  | .start fname => st = .idle && decide (fname.length ≤ Config.maxPayload)
  | .chunk data _ => st = .loadData && decide (data.length ≤ Config.maxPayload)
  | .srcErr => st = .loadData
  | .txOk => st.isSend
  | .txErr => st.isSend
  | .dgram _ => st.isWait
  | .rxErr => st.isWait

/-- The order of events presented together (R160, D12): reset, errors, data, tick; a lower number first.
DEDUCED for START in IDLE (log entry 7). -/
def Event.rank : Event → Nat
  | .reset => 0
  | .rxErr => 1
  | .txErr => 1
  | .srcErr => 1
  | .dgram _ => 2
  | .txOk => 2
  | .chunk _ _ => 2
  | .start _ => 2
  | .tick => 3

/-- The accepted event of an offer that R160 puts first; none if the state accepts none of them. -/
def pick (st : Fsm) : Offer → Option Event
  | [] => none
  | e :: es =>
    if accepts st e then
      match pick st es with
      | some e' => if e'.rank < e.rank then some e' else some e
      | none => some e
    else pick st es

/-- Whether an event that loses stays offered by its port: a port event does, a tick is dropped (R160). -/
def Event.isPort : Event → Bool
  | .reset => false
  | .tick => false
  | _ => true

/-- The accepted port events that lost to `taken` (R160). -/
def losers (st : Fsm) (taken : Event) (o : Offer) : Offer :=
  (o.erase taken).filter fun e => accepts st e && e.isPort

/-- The losing events are presented again in the next cycle, beside what comes then. -/
def presentAgain (lost : Offer) (rest : List Offer) : List Offer :=
  match lost with
  | [] => rest
  | _ :: _ =>
    match rest with
    | [] => [lost]
    | o :: os => (lost ++ o) :: os

/-- What the environment goes on to present after a step in the given state. Refused events are withdrawn
(log entry 2). -/
def nextInputs (st : Fsm) : List Offer → List Offer
  | [] => []
  | o :: rest =>
    match pick st o with
    | none => rest
    | some e => presentAgain (losers st e o) rest

/-- The event the next step takes; none where nothing is presented or everything presented is refused. -/
def State.taken (s : State) : Option Event :=
  match s.inputs with
  | [] => none
  | o :: _ => pick s.st o

/-- The state as a step finds it: the offer used up and the last step's output pulses gone. -/
def State.consume (s : State) : State := { s with inputs := nextInputs s.st s.inputs, out := [] }

/-- The answer where the instruction is not the one the state and the ports select (log entry 5): there is no
such step, nothing is taken and nothing written. -/
def State.notSelected (s : State) : State := { s with out := [] }

/-! ## The header of a step -/

/-- The header at the front of TX (R24). -/
def State.txHeader (s : State) : Option Header :=
  match memRead .tx s.tx 0 Config.headerLength with
  | .ok bs => headerOf bs
  | .error _ => none

/-- The packet with this header is being handed over: a SEND state, `tx.OK`, and TX begins with it (R31, R66). -/
def State.sends (s : State) (h : Header) : Bool :=
  s.txValid && decide (s.taken = some .txOk) && decide (s.txHeader = some h)

/-- The header of the datagram being received: a WAIT state and a datagram of at least seven bytes (R67,
R107). -/
def State.rxHeader (s : State) : Option Header :=
  if s.rxReady then
    match s.taken with
    | some (.dgram bs) => headerOf bs
    | _ => none
  else none

end Sys2Proof.Machine
end

