-- ==== Sys2Proof/Machine/Assembler.lean ====
section
/-! DEFINITION. The Packet Assembler (41_packet_assembler.md: ASSEMBLE, VERIFY), the two steps of a packet over
it (built: R122, R131; handed over: R125, R133), and the meanings of the transmit packet kinds FNAME, DATA.A,
DATA, DATA.AF, DATA.F (R66). -/

namespace Sys2Proof.Machine

/-! ## ASSEMBLE and VERIFY -/

/-- Header with a zero checksum, then the payload (R94 steps 1 and 2). -/
def uncheckedPacket (flags : Byte) (p : List Byte) : List Byte :=
  (encodeHeader ⟨0, BitVec.ofNat 16 p.length, flags⟩).toList ++ p

/-- The checksum of a packet: over bytes 4 .. end (R94 step 3, R64). -/
def packetChecksum (flags : Byte) (p : List Byte) : Word :=
  crc32 ((uncheckedPacket flags p).drop Config.csumBytes)

/-- The packet with its checksum spliced in (R94 step 4). -/
def packetBytes (flags : Byte) (p : List Byte) : List Byte :=
  toBe32 (packetChecksum flags p) ++ (uncheckedPacket flags p).drop Config.csumBytes

/-- `ASSEMBLE(n, f, p)` (R94), `n` the length of `p`: the three header registers and `TX[0 : 7+n]`; the rest of
TX is not touched. One atomic part of the step that invokes it (R45), so one write (log entry 16). -/
def assemble (flags : Byte) (p : List Byte) (s : State) : State :=
  { s with
    hdrLen   := BitVec.ofNat 16 p.length
    hdrFlags := flags
    hdrCsum  := packetChecksum flags p
    tx       := s.tx.write 0 (packetBytes flags p) }

/-- `VERIFY(q)` (R96): the peer's procedure; no step of the engine calls it (R97). -/
def verify (q : List Byte) : Bool :=
  match headerOf q with
  | none => false
  | some h =>
    if q.length < Config.headerLength + h.length.toNat then false
    else decide (h.checksum =
      crc32 ((q.drop Config.csumBytes).take (Config.headerLength + h.length.toNat - Config.csumBytes)))

/-! ## The two steps of a packet -/

/-- R122: the filename packet is built, its acknowledgment expected with flags 0. -/
def buildFilename (fname : List Byte) (s : State) : State :=
  { assemble Config.fFilename fname s with expFlags := 0x00#8, st := .sendFilename }

/-- R131: a data packet is built, its acknowledgment expected with the same flags. -/
def buildData (flags : Byte) (chunk : List Byte) (s : State) : State :=
  { assemble flags chunk s with expFlags := flags, st := .sendData }

/-- The WAIT state a SEND state goes to (R125, R133). -/
def Fsm.afterSend : Fsm → Fsm
  | .sendFilename => .waitFilenameAck
  | _ => .waitDataAck

/-- R125, R133: `TX[0 : tx_len]` leaves the block as one datagram and the wait starts with its full deadline. -/
def sendPacket (s : State) : Result :=
  match s.txData with
  | .error f => .fault f
  | .ok bs =>
    .next { s with
      out       := [.txSend bs]
      waitTimer := BitVec.ofNat 16 Config.tAckTicks
      st        := s.st.afterSend }

/-! ## Transmit packet kinds -/

/-- A packet of the given header is handed over where TX holds it (R66, `sent in state`). -/
def handOver (h : Header) (s : State) : Result :=
  if s.sends h then sendPacket s.consume else .next s.notSelected

/-- A data packet kind (R66): built in LOAD_DATA from a chunk for which R131 gives its flags, handed over in a
SEND state. When it is built the checksum and length are computed, not given (R65; log entry 10). -/
def dataPacket (h : Header) (s : State) : Result :=
  match s.st, s.taken with
  | .loadData, some (.chunk data eof) =>
    if dataFlags s.toggle eof = h.flags then .next (buildData h.flags data s.consume) else .next s.notSelected
  | _, _ => handOver h s

/-- FNAME (R66, R122, R125): built in IDLE from `cmd.START`, handed over in a SEND state. -/
def execFname (checksum : Word) (length : Half) (s : State) : Result :=
  match s.st, s.taken with
  | .idle, some (.start fname) => .next (buildFilename fname s.consume)
  | _, _ => handOver ⟨checksum, length, Config.fFilename⟩ s

/-- DATA.A (R66, R131, R133): `toggle = 0`, not last. -/
def execDataA (checksum : Word) (length : Half) (s : State) : Result :=
  dataPacket ⟨checksum, length, 0x02#8⟩ s

/-- DATA (R66, R131, R133): `toggle = 1`, not last. -/
def execData (checksum : Word) (length : Half) (s : State) : Result :=
  dataPacket ⟨checksum, length, 0x00#8⟩ s

/-- DATA.AF (R66, R131, R133): `toggle = 0`, last chunk. -/
def execDataAF (checksum : Word) (length : Half) (s : State) : Result :=
  dataPacket ⟨checksum, length, 0x06#8⟩ s

/-- DATA.F (R66, R131, R133): `toggle = 1`, last chunk. -/
def execDataF (checksum : Word) (length : Half) (s : State) : Result :=
  dataPacket ⟨checksum, length, 0x04#8⟩ s

end Sys2Proof.Machine
end

