-- ==== Sys2Proof/Machine/Waiter.lean ====
section
/-! DEFINITION. The Acknowledgment Waiter (42_ack_waiter.md): what each event does in a wait and the outcome it
produces, where each outcome leads from the two WAIT states (R127 to R130, R135 to R138), and the meanings of
the received header classes ACK, ACK.A, ACK.F, ACK.AF, RX.OTHER (R67). -/

namespace Sys2Proof.Machine

/-- The waiter's outcomes (R105). -/
inductive WaitOutcome where
  | accept | retry | stay | fatal
  deriving DecidableEq, Repr

/-! ## AWAIT_ACK -/

/-- R107 to R109: RXH takes the header; the outcome compares all eight flag bits; a mismatch pulses. -/
def awaitHeader (b : HeaderBytes) (s : State) : WaitOutcome × State :=
  let s1 := { s with rxh := s.rxh.write 0 b.toList, waitTimer := 0 }
  if (decodeHeader b).flags = s.expFlags then (.accept, s1)
  else (.retry, { s1 with out := [.evBadAck (decodeHeader b).flags] })

/-- R106 with the parameter of D10 (log entry 8): a datagram shorter than the header is discarded and the wait goes
on. -/
def awaitShort (s : State) : WaitOutcome × State :=
  match Config.shortDgram with
  | .discard => (.stay, s)
  | .retry => (.retry, { s with waitTimer := 0 })
  | .fatal => (.fatal, { s with waitTimer := 0 })

/-- A received datagram: length first, then flags (R161); bytes after the header are dropped (R107). -/
def awaitDgram (bytes : List Byte) (s : State) : WaitOutcome × State :=
  match splitHeader bytes with
  | none => awaitShort s
  | some (b, _) => awaitHeader b s

/-- R111, R112: a tick counts down; the last one ends the wait. `wait_timer = 0`, which no reachable wait has,
is treated like 1 (R112, U13; log entry 9). -/
def awaitTick (s : State) : WaitOutcome × State :=
  if 1 < s.waitTimer.toNat then (.stay, { s with waitTimer := s.waitTimer - 1 })
  else (.retry, { s with waitTimer := 0 })

/-- R110: a transport error ends the wait; RXH is not written. -/
def awaitError (s : State) : WaitOutcome × State := (.fatal, { s with waitTimer := 0 })

/-! ## Where the outcomes lead -/

/-- From WAIT_FILENAME_ACK (R127 to R130). -/
def filenameAckResult (r : WaitOutcome × State) : State :=
  match r.1 with
  | .accept => { r.2 with st := .loadData }
  | .retry => { r.2 with st := .sendFilename }
  | .stay => r.2
  | .fatal => raiseFatal .rxErr r.2

/-- R135: the accepted acknowledgment of a data packet flips the toggle, counts the payload and, if the packet
carried FIN, ends the session. -/
def acceptData (s : State) : State :=
  { s with
    toggle    := s.toggle ^^^ 1#1
    bytesSent := s.bytesSent + s.hdrLen.setWidth 64
    st        := if hasFin s.hdrFlags then .terminated else .loadData }

/-- From WAIT_DATA_ACK (R135 to R138). -/
def dataAckResult (r : WaitOutcome × State) : State :=
  match r.1 with
  | .accept => acceptData r.2
  | .retry => { r.2 with st := .sendData }
  | .stay => r.2
  | .fatal => raiseFatal .rxErr r.2

/-- The outcome's effect in the WAIT state the step belongs to. -/
def waitResult (st : Fsm) (r : WaitOutcome × State) : State :=
  match st with
  | .waitFilenameAck => filenameAckResult r
  | _ => dataAckResult r

/-! ## Received header classes -/

/-- A received header of the given value (R67): captured and compared in whichever WAIT state receives it. -/
def receiveHeader (h : Header) (s : State) : Result :=
  if s.rxHeader = some h then .next (waitResult s.st (awaitHeader (encodeHeader h) s.consume))
  else .next s.notSelected

/-- ACK (R67, R108, R109): flags 0x00. -/
def execAck (checksum : Word) (length : Half) (s : State) : Result :=
  receiveHeader ⟨checksum, length, 0x00#8⟩ s

/-- ACK.A (R67, R108, R109): flags 0x02. -/
def execAckA (checksum : Word) (length : Half) (s : State) : Result :=
  receiveHeader ⟨checksum, length, 0x02#8⟩ s

/-- ACK.F (R67, R108, R109): flags 0x04. -/
def execAckF (checksum : Word) (length : Half) (s : State) : Result :=
  receiveHeader ⟨checksum, length, 0x04#8⟩ s

/-- ACK.AF (R67, R108, R109): flags 0x06. -/
def execAckAF (checksum : Word) (length : Half) (s : State) : Result :=
  receiveHeader ⟨checksum, length, 0x06#8⟩ s

/-- RX.OTHER (R67, R109): any other flags byte. The comparison of R109 is made all the same, so the class needs
no assumption on what is expected. -/
def execRxOther (checksum : Word) (length : Half) (flags : Byte) (s : State) : Result :=
  receiveHeader ⟨checksum, length, flags⟩ s

end Sys2Proof.Machine
end

