-- ==== Sys2Proof/Machine/Transfer.lean ====
section
/-! DEFINITION. The Transfer State Machine (43_transfer_fsm.md): one meaning per step kind, the rows of the
transition table R121. A step takes the event `State.taken` gives, which is one its state accepts; `reset` is
accepted everywhere (R170), `tick` is ignored outside the WAIT states, a refused event and no event change
nothing. -/

namespace Sys2Proof.Machine

/-- A step kind is performed in its own state (R70); elsewhere it is not selected. -/
def inState (st : Fsm) (s : State) (r : Result) : Result :=
  if s.st = st then r else .next s.notSelected

/-- IDLE (R122, R123). -/
def idleStep (s : State) : Result :=
  match s.taken with
  | some .reset => .next (resetEngine s.consume)
  | some (.start fname) => .next (buildFilename fname s.consume)
  | _ => .next s.consume

/-- A SEND state (R125, R126; R133, R134). -/
def sendStep (s : State) : Result :=
  match s.taken with
  | some .reset => .next (resetEngine s.consume)
  | some .txOk => sendPacket s.consume
  | some .txErr => .next (raiseFatal .txErr s.consume)
  | _ => .next s.consume

/-- LOAD_DATA (R131, R132). -/
def loadStep (s : State) : Result :=
  match s.taken with
  | some .reset => .next (resetEngine s.consume)
  | some (.chunk data eof) => .next (buildData (dataFlags s.toggle eof) data s.consume)
  | some .srcErr => .next (raiseFatal .srcErr s.consume)
  | _ => .next s.consume

/-- A WAIT state (R105 to R112 with R127 to R130 or R135 to R138). -/
def waitStep (s : State) : Result :=
  match s.taken with
  | some .reset => .next (resetEngine s.consume)
  | some (.dgram bytes) => .next (waitResult s.st (awaitDgram bytes s.consume))
  | some .rxErr => .next (waitResult s.st (awaitError s.consume))
  | some .tick => .next (waitResult s.st (awaitTick s.consume))
  | _ => .next s.consume

/-- An absorbing state (R139, R140): only reset leaves it. -/
def absorbingStep (s : State) : Result :=
  match s.taken with
  | some .reset => .next (resetEngine s.consume)
  | _ => .next s.consume

/-- STEP.IDLE (R122, R123). -/
def execStepIdle (s : State) : Result := inState .idle s (idleStep s)

/-- STEP.SEND_FILENAME (R125, R126). -/
def execStepSendFilename (s : State) : Result := inState .sendFilename s (sendStep s)

/-- STEP.WAIT_FILENAME_ACK (R127 to R130). -/
def execStepWaitFilenameAck (s : State) : Result := inState .waitFilenameAck s (waitStep s)

/-- STEP.LOAD_DATA (R131, R132). -/
def execStepLoadData (s : State) : Result := inState .loadData s (loadStep s)

/-- STEP.SEND_DATA (R133, R134). -/
def execStepSendData (s : State) : Result := inState .sendData s (sendStep s)

/-- STEP.WAIT_DATA_ACK (R135 to R138). -/
def execStepWaitDataAck (s : State) : Result := inState .waitDataAck s (waitStep s)

/-- STEP.TERMINATED (R139). -/
def execStepTerminated (s : State) : Result := inState .terminated s (absorbingStep s)

/-- STEP.FATAL (R140). -/
def execStepFatal (s : State) : Result := inState .fatal s (absorbingStep s)

end Sys2Proof.Machine
end

