-- ==== Sys2Proof/Machine/Dispatch.lean ====
section
/-! DEFINITION. The meaning of every row of spec/opcode_table.json. -/

namespace Sys2Proof.Machine

def exec (i : Instr) (s : State) : Host.Outcome State Fault Refusal :=
  match i with
  | .fname checksum length => Sys2Proof.Machine.execFname checksum length s
  | .dataA checksum length => Sys2Proof.Machine.execDataA checksum length s
  | .data checksum length => Sys2Proof.Machine.execData checksum length s
  | .dataAF checksum length => Sys2Proof.Machine.execDataAF checksum length s
  | .dataF checksum length => Sys2Proof.Machine.execDataF checksum length s
  | .ack checksum length => Sys2Proof.Machine.execAck checksum length s
  | .ackA checksum length => Sys2Proof.Machine.execAckA checksum length s
  | .ackF checksum length => Sys2Proof.Machine.execAckF checksum length s
  | .ackAF checksum length => Sys2Proof.Machine.execAckAF checksum length s
  | .rxOther checksum length flags => Sys2Proof.Machine.execRxOther checksum length flags s
  | .stepIdle => Sys2Proof.Machine.execStepIdle s
  | .stepSendFilename => Sys2Proof.Machine.execStepSendFilename s
  | .stepWaitFilenameAck => Sys2Proof.Machine.execStepWaitFilenameAck s
  | .stepLoadData => Sys2Proof.Machine.execStepLoadData s
  | .stepSendData => Sys2Proof.Machine.execStepSendData s
  | .stepWaitDataAck => Sys2Proof.Machine.execStepWaitDataAck s
  | .stepTerminated => Sys2Proof.Machine.execStepTerminated s
  | .stepFatal => Sys2Proof.Machine.execStepFatal s

end Sys2Proof.Machine
end

