-- ==== Sys2Proof/Machine/Fetch.lean ====
section
/-! DEFINITION. Where a step's instruction comes from. There is no instruction memory (R54): the state code is
always there (R70), the packet being handed over stands in TX (R66), the received header in the datagram (R67). -/

namespace Sys2Proof.Machine

/-- The step kind the state register selects (R70). -/
def stateInstr (st : Fsm) : Instr := decodeSt st.code

/-- The bits of the next step and their format: TX's header where a packet is handed over, the datagram's first
seven bytes where a header is received, else the state code. -/
def fetchBits (s : State) : Format × List Byte :=
  match s.txValid, s.rxReady, s.taken with
  | true, _, some .txOk =>
    match memRead .tx s.tx 0 Config.headerLength with
    | .ok bs => (.txHdr56, bs)
    | .error _ => (.st3, [s.st.code.setWidth 8])
  | _, true, some (.dgram bytes) =>
    match splitHeader bytes with
    | some (b, _) => (.rxHdr56, b.toList)
    | none => (.st3, [s.st.code.setWidth 8])
  | _, _, _ => (.st3, [s.st.code.setWidth 8])

/-- The instruction of the next step. Bits in TX that are no transmit kind, which no reachable state holds, leave
the step to the state code: R125 and R133 do not read them (DEDUCED, log entry 14). -/
def fetch (s : State) : Instr :=
  match decode (fetchBits s).1 (fetchBits s).2 with
  | .ok (i, _) => i
  | .error _ => stateInstr s.st

/-- A state code placed in `st`, with a tick presented, the one event besides reset that every state accepts
(R33). -/
def placeState (s : State) (code : BitVec 3) : State :=
  { s with st := Fsm.ofCode code, inputs := [[.tick]] }

/-- A packet of the given header and a payload of zeros placed in TX and its header registers, about to be handed
over (R13 to R15, R24, R66). -/
def placeTransmit (s : State) (h : Header) : State :=
  { s with
    st       := if h.flags = Config.fFilename then .sendFilename else .sendData
    hdrLen   := h.length
    hdrFlags := h.flags
    hdrCsum  := h.checksum
    tx       := s.tx.write 0
      ((encodeHeader h).toList ++ List.replicate (min h.length.toNat Config.maxPayload) 0x00#8)
    inputs   := [[.txOk]] }

/-- A datagram of the given header presented in a wait (R67). -/
def placeReceive (s : State) (h : Header) : State :=
  { s with st := .waitDataAck, inputs := [[.dgram (encodeHeader h).toList]] }

/-- The word placed where the next step finds it, by the direction `decodeTableWord` reads (log entry 4). -/
def placeWord (s : State) (nbits w : Nat) : State :=
  if nbits ≤ 8 then placeState s (BitVec.ofNat 3 w)
  else
    match decodeOnly .txHdr56 (bytesOfWord w) with
    | some _ => placeTransmit s (headerOfWord w)
    | none => placeReceive s (headerOfWord w)

end Sys2Proof.Machine
end

