-- ==== Sys2Proof/Machine/Step.lean ====
section
/-! DEFINITION. One step of the engine: one atomic transition (R45, R48). -/

namespace Sys2Proof.Machine

/-- The instruction the state and the ports select is performed. -/
def step (s : State) : Host.Outcome State Fault Refusal := exec (fetch s) s

/-- The instruction of a table word placed where the next step finds it. -/
def State.withFetchWord (s : State) (nbits w : Nat) : State := placeWord s nbits w

end Sys2Proof.Machine
end

