-- ==== Sys2Proof/Safety.lean ====
section
/-! DEFINITION. What a safe run is, in the terms the statements use: the invariants of R35, and the events of a
run that R141 and R145 count. -/

namespace Sys2Proof.Machine

/-- R35, with what its parts rest on: the buffers' canonical form, and the reset values IDLE keeps until START
(R122). I8 and I9 are about runs (`runAccepted`). -/
structure Inv (s : State) : Prop where
  /-- I1. -/
  lenBound : s.hdrLen.toNat ≤ Config.maxPayload
  /-- I2: `hdr_flags[7:3] = 0`. -/
  flagsReserved : s.hdrFlags.extractLsb' 3 5 = 0#5
  /-- I3: the timer runs exactly in the WAIT states. -/
  timerIffWait : s.waitTimer ≠ 0 ↔ s.st.isWait
  /-- I3: and never holds more than the deadline. -/
  timerBound : s.waitTimer.toNat ≤ Config.tAckTicks
  /-- I4, from IDLE on: no data is acknowledged before the data phase. -/
  beforeData : s.st = .idle ∨ s.st = .sendFilename ∨ s.st = .waitFilenameAck →
    s.toggle = 0#1 ∧ s.bytesSent = 0 ∧ s.expFlags = 0#8
  /-- I4. -/
  filenameFlags : s.st = .sendFilename ∨ s.st = .waitFilenameAck → s.hdrFlags = Config.fFilename
  /-- I5. -/
  dataPhaseFlags : s.st = .sendData ∨ s.st = .waitDataAck →
    s.hdrFlags.getLsbD 0 = false ∧ s.hdrFlags.getLsbD 1 = !s.toggle.getLsbD 0 ∧ s.expFlags = s.hdrFlags
  /-- I6: TX begins with the assembled packet of the header registers, whose checksum is `hdr_csum`. -/
  packetInTx : s.st ≠ .idle → ∃ p : List Byte,
    p.length = s.hdrLen.toNat ∧ s.txData = .ok (packetBytes s.hdrFlags p) ∧ s.hdrCsum = packetChecksum s.hdrFlags p
  /-- I7. -/
  causeIffFatal : s.errCause ≠ 0#3 ↔ s.st = .fatal
  /-- R19: codes 4 to 7 are never written. -/
  causeKnown : s.errCause.toNat ≤ 3
  /-- R23, R24. -/
  txWf : Memory.wf .tx s.tx
  /-- R23, R25. -/
  rxhWf : Memory.wf .rxh s.rxh

/-- The next step accepts the acknowledgment of a data packet (R108, R135). -/
def State.acceptsData (s : State) : Bool :=
  decide (s.st = .waitDataAck) && decide (s.rxHeader.map (·.flags) = some s.expFlags)

/-- The states of a run of `n` steps from `s`, the first one first, as far as it goes. -/
def runStates : Nat → State → List State
  | 0, s => [s]
  | n + 1, s =>
    match step s with
    | .next t => s :: runStates n t
    | .fault _ => [s]
    | .refused _ => [s]

/-- Over a run of `n` steps from `s`: how many data packets' acknowledgments are accepted, and the payload bytes
of those packets (R35 I8, I9; R145). -/
def runAccepted : Nat → State → Nat × Nat
  | 0, _ => (0, 0)
  | n + 1, s =>
    match step s with
    | .next t =>
      if s.acceptsData then ((runAccepted n t).1 + 1, (runAccepted n t).2 + s.hdrLen.toNat) else runAccepted n t
    | .fault _ => (0, 0)
    | .refused _ => (0, 0)

/-- No step of the run of `n` steps from `s` is a reset. -/
def noReset : Nat → State → Prop
  | 0, _ => True
  | n + 1, s =>
    s.taken ≠ some .reset ∧
      match step s with
      | .next t => noReset n t
      | .fault _ => True
      | .refused _ => True

end Sys2Proof.Machine
end

