-- ==== Sys2Proof/Certificates/Slice0/Obligations.lean ====
section
/-! DEFINITION. The statements for the provers. A step's operand is the event it takes (`State.taken`), and
`State.consume` is the state with that event used up; `TakenEventHasPriority` says which event that is. A next
state written as a record update states the frame with the result: every field not named is unchanged. The fields
`inputs` and `out` are the model's own (log entries 1 to 3): what a statement says about them is the model's, and
no rule is cited for it, but for the events of R31 and R109 that `out` holds. -/

open Sys2Proof Sys2Proof.Machine

/-! ## Encoding -/

/-- Words written out from the tables of R61, R66, R67, R70 decode to their rows. -/
def Obligations.KnownWordsDecode : Prop :=
  decode .txHdr56 [0x12#8, 0xD4#8, 0x5B#8, 0x46#8, 0x00#8, 0x05#8, 0x01#8] = .ok (.fname 0x12D45B46#32 5#16, []) ∧
  decode .txHdr56 [0x0C#8, 0x49#8, 0x73#8, 0xB6#8, 0x00#8, 0x01#8, 0x06#8] = .ok (.dataAF 0x0C4973B6#32 1#16, []) ∧
  decode .rxHdr56 [0xDE#8, 0xAD#8, 0xBE#8, 0xEF#8, 0x01#8, 0xF9#8, 0x02#8] = .ok (.ackA 0xDEADBEEF#32 505#16, []) ∧
  decode .rxHdr56 [0x00#8, 0x00#8, 0x00#8, 0x00#8, 0x00#8, 0x00#8, 0x82#8] = .ok (.rxOther 0#32 0#16 0x82#8, []) ∧
  decode .st3 [5#8] = .ok (.stepWaitDataAck, []) ∧
  decode .txHdr56 [0x00#8, 0x00#8, 0x00#8, 0x00#8, 0x00#8, 0x00#8, 0x03#8] = .error (.notTransmitKind 0x03#8)

/-- Every well-formed instruction is read back from its own words, whatever follows them (R61, R66, R67, R70). -/
def Obligations.DecodeOfEncode : Prop :=
  ∀ (i : Instr) (rest : List Byte), i.wf = true → decode i.format (encode i ++ rest) = .ok (i, rest)

/-- What the decoder reads is exactly the encoder's words, so each word has one meaning (R66, R67, R70). For a state
code, which R70 gives three bits, the byte around it is the model's choice (log entry 15), and so is the clause that
a byte with a bit set above bits 2:0 is no instruction. -/
def Obligations.EncodeOfDecode : Prop :=
  ∀ (f : Format) (bs rest : List Byte) (i : Instr),
    decode f bs = .ok (i, rest) → i.format = f ∧ bs = encode i ++ rest

/-- R83: the codec is a bijection between header values and 7-byte strings. -/
def Obligations.HeaderCodecBijection : Prop :=
  (∀ h : Header, decodeHeader (encodeHeader h) = h) ∧ ∀ b : HeaderBytes, encodeHeader (decodeHeader b) = b

/-- R81, R82 as arithmetic (R7): each header byte is the field's base-256 digit, most significant first, and
DECODE adds the digits up again. -/
def Obligations.HeaderFieldsAreBigEndian : Prop :=
  (∀ h : Header,
    (encodeHeader h).b0.toNat = h.checksum.toNat / 2 ^ 24 ∧
    (encodeHeader h).b1.toNat = h.checksum.toNat / 2 ^ 16 % 256 ∧
    (encodeHeader h).b2.toNat = h.checksum.toNat / 2 ^ 8 % 256 ∧
    (encodeHeader h).b3.toNat = h.checksum.toNat % 256 ∧
    (encodeHeader h).b4.toNat = h.length.toNat / 2 ^ 8 ∧
    (encodeHeader h).b5.toNat = h.length.toNat % 256 ∧
    (encodeHeader h).b6 = h.flags) ∧
  ∀ b : HeaderBytes,
    (decodeHeader b).checksum.toNat = b.b0.toNat * 2 ^ 24 + b.b1.toNat * 2 ^ 16 + b.b2.toNat * 2 ^ 8 + b.b3.toNat ∧
    (decodeHeader b).length.toNat = b.b4.toNat * 2 ^ 8 + b.b5.toNat ∧
    (decodeHeader b).flags = b.b6

/-- A table word placed by `withFetchWord` is fetched by the next step, which performs it to the end (log entry
4: the host's words; the direction is the model's choice where the bits leave it open). -/
def Obligations.PlacedWordIsFetchedAndRuns : Prop :=
  ∀ (s : State) (nbits w : Nat) (i : Instr), decodeTableWord nbits w = some i → i.wf = true →
    fetch (s.withFetchWord nbits w) = i ∧ ∃ t, step (s.withFetchWord nbits w) = .next t

/-! ## Checksum unit and assembler -/

/-- R93: the table form and the most-significant-bit-first form agree with R91 and R92; the sample entries. -/
def Obligations.ChecksumFormsAgree : Prop :=
  (∀ (c : Word) (b : Byte), crcByte c b = crcByteTable c b) ∧
  (∀ s : List Byte, crc32 s = crc32Msb s) ∧
  Config.crcPoly.reverse = 0x814141AB#32 ∧
  crcTable 0#8 = 0x00000000#32 ∧ crcTable 1#8 = 0x999A0002#32 ∧ crcTable 2#8 = 0x98310507#32 ∧
  crcTable 128#8 = 0xD5828281#32 ∧ crcTable 255#8 = 0x77760001#32

/-- R94: the registers and the bytes ASSEMBLE writes, and that it writes nothing else: the tail of TX keeps its
bytes. -/
def Obligations.AssembleLaysOutPacket : Prop :=
  ∀ (f : Byte) (p : List Byte) (s : State), p.length ≤ 505 →
    let n : Half := BitVec.ofNat 16 p.length
    let body : List Byte := toBe16 n ++ [f] ++ p
    let t := assemble f p s
    t = { s with hdrLen := n, hdrFlags := f, hdrCsum := crc32 body, tx := t.tx } ∧
    memRead .tx t.tx 0 (7 + p.length) = .ok (toBe32 (crc32 body) ++ body) ∧
    ∀ a, 7 + p.length ≤ a → t.tx.byte a = s.tx.byte a

/-- R96: VERIFY's three cases: too short for a header, payload truncated, and the comparison over bytes 4 to the
end of the payload, whatever follows. -/
def Obligations.VerifyChecksLengthThenChecksum : Prop :=
  (∀ q : List Byte, q.length < 7 → verify q = false) ∧
  (∀ (b : HeaderBytes) (p : List Byte), p.length < (decodeHeader b).length.toNat → verify (b.toList ++ p) = false) ∧
  ∀ (b : HeaderBytes) (p extra : List Byte), p.length = (decodeHeader b).length.toNat →
    verify (b.toList ++ p ++ extra) = decide ((decodeHeader b).checksum = crc32 ([b.b4, b.b5, b.b6] ++ p))

/-- R95 (a), (c), (d): an assembled packet has 7 + n bytes, verifies itself, and its checksum does not depend on
what stands in the checksum slot. -/
def Obligations.AssembledPacketVerifies : Prop :=
  ∀ (f : Byte) (p : List Byte), p.length ≤ 505 →
    (packetBytes f p).length = 7 + p.length ∧ verify (packetBytes f p) = true ∧
    ∀ slot : Word, crc32 (((encodeHeader ⟨slot, BitVec.ofNat 16 p.length, f⟩).toList ++ p).drop 4) = packetChecksum f p

/-- R98, for a whole byte and so for each of its bits: changing one byte of an assembled packet, in the checksum,
the flags or the payload, makes VERIFY false. -/
def Obligations.VerifyDetectsOneChangedByte : Prop :=
  ∀ (f : Byte) (p : List Byte) (k : Nat) (v : Byte), p.length ≤ 505 → k < 7 + p.length → (k < 4 ∨ 6 ≤ k) →
    (packetBytes f p)[k]? ≠ some v → verify ((packetBytes f p).set k v) = false

/-! ## The transfer state machine, step by step -/

/-- START with a name that fits builds the filename packet: as STEP.IDLE, which is R122, and as FNAME. That FNAME with
any checksum and length operands stands for building the packet is the model's reading (DEDUCED, log entry 10: the
operands of a kind being built are results and are not read); no rule is cited for that clause. -/
def Obligations.StartBuildsFilenamePacket : Prop :=
  ∀ (s : State) (fname : List Byte), s.st = .idle → s.taken = some (.start fname) →
    let t := { assemble 0x01#8 fname s.consume with expFlags := 0x00#8, st := Fsm.sendFilename }
    fname.length ≤ 505 ∧ exec .stepIdle s = .next t ∧ ∀ c l, exec (.fname c l) s = .next t

/-- R123: in IDLE a name that does not fit is refused, a tick is ignored, and the other ports are not ready:
nothing changes. -/
def Obligations.IdleIgnoresTheRest : Prop :=
  ∀ (s : State) (e : Event) (rest : List Offer), s.st = .idle → s.inputs = [e] :: rest → e ≠ .reset →
    (∀ fname, e = .start fname → 505 < fname.length) →
    exec .stepIdle s = .next { s with inputs := s.consume.inputs, out := [] }

/-- R125, R133: `tx.OK` sends `TX[0 : 7 + hdr_len]` as one datagram and starts the wait with 500 ticks. -/
def Obligations.SendStateHandsOverPacket : Prop :=
  ∀ (s : State) (bs : List Byte), s.taken = some .txOk → memRead .tx s.tx 0 (7 + s.hdrLen.toNat) = .ok bs →
    (s.st = .sendFilename → exec .stepSendFilename s =
      .next { s.consume with out := [.txSend bs], waitTimer := 500#16, st := .waitFilenameAck }) ∧
    (s.st = .sendData → exec .stepSendData s =
      .next { s.consume with out := [.txSend bs], waitTimer := 500#16, st := .waitDataAck })

/-- FNAME, DATA.A, DATA, DATA.AF, DATA.F standing at the front of TX are handed over as R125 and R133 say of the SEND
state's own step. That a packet kind of R66 stands for this step too, and from whichever SEND state holds it (R66's
column names one), is the model's reading (DEDUCED, log entry 10); no rule is cited for it. -/
def Obligations.PacketKindsAreHandedOver : Prop :=
  ∀ (s : State) (i : Instr) (h : Header) (bs : List Byte), i.txHeader = some h →
    (s.st = .sendFilename ∨ s.st = .sendData) → s.taken = some .txOk →
    memRead .tx s.tx 0 7 = .ok (encodeHeader h).toList → memRead .tx s.tx 0 (7 + s.hdrLen.toNat) = .ok bs →
    exec i s = .next { s.consume with
      out := [.txSend bs], waitTimer := 500#16,
      st := if s.st = .sendFilename then .waitFilenameAck else .waitDataAck }

/-- R126, R134: `tx.ERR` is fatal with cause 1; in a SEND state a tick is ignored and the other ports refuse. -/
def Obligations.SendStateErrorIsFatal : Prop :=
  ∀ (s : State) (i : Instr),
    (s.st = .sendFilename ∧ i = .stepSendFilename ∨ s.st = .sendData ∧ i = .stepSendData) →
    (s.taken = some .txErr → exec i s = .next { s.consume with errCause := 1#3, waitTimer := 0, st := .fatal }) ∧
    ∀ (e : Event) (rest : List Offer), s.inputs = [e] :: rest → e ≠ .reset → e ≠ .txOk → e ≠ .txErr →
      exec i s = .next { s with inputs := s.consume.inputs, out := [] }

/-- R127: an accepted acknowledgment of the filename packet leads to LOAD_DATA and changes neither toggle nor byte
counter; without a reset no later step leads back into the filename phase, so this happens once per session. -/
def Obligations.FilenameAckAccepted : Prop :=
  (∀ (s : State) (bytes rest : List Byte) (b : HeaderBytes), s.st = .waitFilenameAck →
    s.taken = some (.dgram bytes) → splitHeader bytes = some (b, rest) → b.b6 = s.expFlags →
    exec .stepWaitFilenameAck s = .next { s.consume with
      rxh := s.rxh.write 0 b.toList, waitTimer := 0, st := .loadData }) ∧
  ∀ (n : Nat) (s t : State), noReset n s → Sys2Proof.core.run n s = .next t →
    s.st ≠ .idle → s.st ≠ .sendFilename → s.st ≠ .waitFilenameAck →
    t.st ≠ .idle ∧ t.st ≠ .sendFilename ∧ t.st ≠ .waitFilenameAck

/-- R109, R128, R129, R136, R137: in either WAIT state a datagram with other flags, or the last tick, leads back to
the SEND state; only the mismatch writes RXH and pulses. -/
def Obligations.WaitRetries : Prop :=
  ∀ (s : State) (i : Instr),
    (s.st = .waitFilenameAck ∧ i = .stepWaitFilenameAck ∨ s.st = .waitDataAck ∧ i = .stepWaitDataAck) →
    (∀ bytes b rest, s.taken = some (.dgram bytes) → splitHeader bytes = some (b, rest) → b.b6 ≠ s.expFlags →
      exec i s = .next { s.consume with
        rxh := s.rxh.write 0 b.toList, waitTimer := 0, out := [.evBadAck b.b6],
        st := if s.st = .waitFilenameAck then .sendFilename else .sendData }) ∧
    (s.taken = some .tick → s.waitTimer = 1#16 →
      exec i s = .next { s.consume with
        waitTimer := 0, st := if s.st = .waitFilenameAck then .sendFilename else .sendData })

/-- R106, R110, R111, R130, R138: in either WAIT state a short datagram and a tick with time left stay, `rx.ERR` is
fatal with cause 2, the other ports refuse. -/
def Obligations.WaitStaysOrDies : Prop :=
  ∀ (s : State) (i : Instr),
    (s.st = .waitFilenameAck ∧ i = .stepWaitFilenameAck ∨ s.st = .waitDataAck ∧ i = .stepWaitDataAck) →
    (∀ bytes, s.taken = some (.dgram bytes) → bytes.length < 7 →
      exec i s = .next { s with inputs := s.consume.inputs, out := [] }) ∧
    (s.taken = some .tick → 1 < s.waitTimer.toNat →
      exec i s = .next { s.consume with waitTimer := s.waitTimer - 1 }) ∧
    (s.taken = some .rxErr →
      exec i s = .next { s.consume with errCause := 2#3, waitTimer := 0, st := .fatal }) ∧
    ∀ (e : Event) (rest : List Offer), s.inputs = [e] :: rest → e ≠ .reset → e ≠ .tick → e ≠ .rxErr →
      (∀ bytes, e ≠ .dgram bytes) → exec i s = .next { s with inputs := s.consume.inputs, out := [] }

/-- A chunk that fits becomes a data packet, ALTERNATING present iff the toggle is 0, FIN iff it is the last: as
STEP.LOAD_DATA, which is R131, and as the packet kind with those flags. That DATA.A, DATA, DATA.AF and DATA.F with any
checksum and length operands stand for building the packet is the model's reading (DEDUCED, log entry 10: the operands
of a kind being built are results and are not read); no rule is cited for those clauses. -/
def Obligations.ChunkBuildsDataPacket : Prop :=
  ∀ (s : State) (data : List Byte) (eof : Bool), s.st = .loadData → s.taken = some (.chunk data eof) →
    let f : Byte := (if s.toggle = 0#1 then 0x02#8 else 0x00#8) ||| (if eof then 0x04#8 else 0x00#8)
    let t := { assemble f data s.consume with expFlags := f, st := Fsm.sendData }
    data.length ≤ 505 ∧ exec .stepLoadData s = .next t ∧
    (∀ c l, s.toggle = 0#1 → eof = false → exec (.dataA c l) s = .next t) ∧
    (∀ c l, s.toggle = 1#1 → eof = false → exec (.data c l) s = .next t) ∧
    (∀ c l, s.toggle = 0#1 → eof = true → exec (.dataAF c l) s = .next t) ∧
    (∀ c l, s.toggle = 1#1 → eof = true → exec (.dataF c l) s = .next t)

/-- R132: a chunk that does not fit is refused, `src.ERR` is fatal with cause 3, a tick is ignored, the other
ports refuse. -/
def Obligations.LoadStateOtherEvents : Prop :=
  ∀ s : State, s.st = .loadData →
    (s.taken = some .srcErr →
      exec .stepLoadData s = .next { s.consume with errCause := 3#3, waitTimer := 0, st := .fatal }) ∧
    ∀ (e : Event) (rest : List Offer), s.inputs = [e] :: rest → e ≠ .reset → e ≠ .srcErr →
      (∀ data eof, e = .chunk data eof → 505 < data.length) →
      exec .stepLoadData s = .next { s with inputs := s.consume.inputs, out := [] }

/-- R135: the accepted acknowledgment of a data packet flips the toggle, counts its payload, and ends the session
iff the packet carried FIN. -/
def Obligations.DataAckAccepted : Prop :=
  ∀ (s : State) (bytes rest : List Byte) (b : HeaderBytes), s.st = .waitDataAck →
    s.taken = some (.dgram bytes) → splitHeader bytes = some (b, rest) → b.b6 = s.expFlags →
    exec .stepWaitDataAck s = .next { s.consume with
      rxh := s.rxh.write 0 b.toList, waitTimer := 0,
      toggle := s.toggle ^^^ 1#1, bytesSent := BitVec.ofNat 64 (s.bytesSent.toNat + s.hdrLen.toNat),
      st := if s.hdrFlags.getLsbD 2 = true then .terminated else .loadData }

/-- R108, R109 (R67): ACK, ACK.A, ACK.F, ACK.AF and RX.OTHER, received in either WAIT state: all eight flag bits
are compared with what is expected, equal leads on, unequal pulses and leads back. -/
def Obligations.ReceivedClassesCompareFlags : Prop :=
  ∀ (s : State) (i : Instr) (h : Header) (bytes rest : List Byte), i.rxHeader = some h →
    s.taken = some (.dgram bytes) → splitHeader bytes = some (encodeHeader h, rest) →
    let r := { s.consume with rxh := s.rxh.write 0 (encodeHeader h).toList, waitTimer := 0 }
    (s.st = .waitFilenameAck → exec i s = .next (
      if h.flags = s.expFlags then { r with st := .loadData }
      else { r with out := [.evBadAck h.flags], st := .sendFilename })) ∧
    (s.st = .waitDataAck → exec i s = .next (
      if h.flags = s.expFlags then
        { r with
          toggle := s.toggle ^^^ 1#1, bytesSent := BitVec.ofNat 64 (s.bytesSent.toNat + s.hdrLen.toNat),
          st := if s.hdrFlags.getLsbD 2 = true then .terminated else .loadData }
      else { r with out := [.evBadAck h.flags], st := .sendData }))

/-- R67's last row (log entry 12): under the invariant a header of class RX.OTHER is never accepted, whatever is
expected: the packet is sent again. -/
def Obligations.OtherClassIsNeverAccepted : Prop :=
  ∀ (s : State) (c : Word) (l : Half) (f : Byte), Inv s → (Instr.rxOther c l f).wf = true →
    s.rxHeader = some ⟨c, l, f⟩ →
    ∃ t, exec (.rxOther c l f) s = .next t ∧ t.out = [.evBadAck f] ∧ t.toggle = s.toggle ∧
      t.bytesSent = s.bytesSent ∧ (t.st = .sendFilename ∨ t.st = .sendData)

/-- R107: the first seven bytes of the datagram are what RXH holds afterwards, and no other address changes. -/
def Obligations.HeaderIsCaptured : Prop :=
  ∀ (s t : State) (bytes rest : List Byte) (b : HeaderBytes), s.st.isWait = true → s.taken = some (.dgram bytes) →
    splitHeader bytes = some (b, rest) → step s = .next t →
    memRead .rxh t.rxh 0 7 = .ok b.toList ∧ (∀ a, 7 ≤ a → t.rxh.byte a = s.rxh.byte a) ∧ t.tx = s.tx

/-- R139: TERMINATED: entered only by the accepted acknowledgment of a packet that carried FIN; its outputs; and
whatever is presented but reset, no register and no buffer changes. -/
def Obligations.TerminatedIsAbsorbing : Prop :=
  (∀ s t : State, step s = .next t → t.st = .terminated → s.st ≠ .terminated →
    s.st = .waitDataAck ∧ s.hdrFlags.getLsbD 2 = true ∧
    ∃ bytes b rest, s.taken = some (.dgram bytes) ∧ splitHeader bytes = some (b, rest) ∧ b.b6 = s.expFlags) ∧
  ∀ s : State, s.st = .terminated →
    (s.taken ≠ some .reset → exec .stepTerminated s = .next { s with inputs := s.consume.inputs, out := [] }) ∧
    s.closed = true ∧ s.done = true ∧ s.txValid = false ∧ s.rxReady = false ∧ s.srcReq = false ∧ s.cmdReady = false

/-- R140: FATAL: entered only by the fatal-entry sequence from a SEND state, a WAIT state or LOAD_DATA; its
outputs; and whatever is presented but reset, no register and no buffer changes. -/
def Obligations.FatalIsAbsorbing : Prop :=
  (∀ s t : State, step s = .next t → t.st = .fatal → s.st ≠ .fatal →
    (s.st.isSend = true ∨ s.st.isWait = true ∨ s.st = .loadData) ∧ ∃ cause, t = raiseFatal cause s.consume) ∧
  ∀ s : State, s.st = .fatal →
    (s.taken ≠ some .reset → exec .stepFatal s = .next { s with inputs := s.consume.inputs, out := [] }) ∧
    s.closed = true ∧ s.fatal = true ∧ s.txValid = false ∧ s.rxReady = false ∧ s.srcReq = false ∧ s.cmdReady = false

/-- R151, R156, R157: a step enters FATAL exactly on an error event its state accepts, with that error's cause, and
nothing else but the timer changes. -/
def Obligations.FatalEntryIsPrecise : Prop :=
  ∀ s t : State, step s = .next t → s.st ≠ .fatal →
    (t.st = .fatal ↔
      s.taken = some .txErr ∧ (s.st = .sendFilename ∨ s.st = .sendData) ∨
      s.taken = some .rxErr ∧ (s.st = .waitFilenameAck ∨ s.st = .waitDataAck) ∨
      s.taken = some .srcErr ∧ s.st = .loadData) ∧
    (t.st = .fatal →
      (s.taken = some .txErr → t.errCause = 1#3) ∧ (s.taken = some .rxErr → t.errCause = 2#3) ∧
      (s.taken = some .srcErr → t.errCause = 3#3) ∧
      t = { s with
        errCause := t.errCause, waitTimer := 0, st := .fatal, inputs := s.consume.inputs, out := [] } ∧
      t.fatal = true ∧ t.closed = true ∧ t.cmdReady = false ∧ t.srcReq = false ∧ t.txValid = false ∧
      t.rxReady = false)

/-- R170: `reset` leads from every state to the reset values, with no byte of either buffer holding a value. -/
def Obligations.ResetFromEveryState : Prop :=
  ∀ s : State, s.taken = some .reset →
    step s = .next {
      st := .idle, toggle := 0, hdrLen := 0, hdrFlags := 0, hdrCsum := 0, expFlags := 0, bytesSent := 0,
      waitTimer := 0, errCause := 0, tx := [], rxh := [], inputs := s.consume.inputs, out := [] }

/-- R34: the values after reset and the derived outputs. -/
def Obligations.ResetValues : Prop :=
  State.reset.status = {
    st := 0#3, busy := false, done := false, fatal := false, cmdReady := true, txValid := false, rxReady := false,
    srcReq := false, closed := false, errCause := 0#3, toggle := 0#1, bytesSent := 0#64, hdrLen := 0#16,
    hdrFlags := 0#8, hdrCsum := 0#32, expFlags := 0#8, waitTimer := 0#16, txLen := 7, rxFlags := none } ∧
  ∀ a, State.reset.tx.byte a = none ∧ State.reset.rxh.byte a = none

/-! ## Ports -/

/-- R28 to R33: which events the ports accept in which state. -/
def Obligations.PortsAcceptByState : Prop :=
  ∀ (st : Fsm) (e : Event), accepts st e = true ↔
    e = .reset ∨ e = .tick ∨
    (st = .idle ∧ ∃ fname, e = .start fname ∧ fname.length ≤ 505) ∨
    (st = .loadData ∧ (e = .srcErr ∨ ∃ data eof, e = .chunk data eof ∧ data.length ≤ 505)) ∨
    ((st = .sendFilename ∨ st = .sendData) ∧ (e = .txOk ∨ e = .txErr)) ∨
    ((st = .waitFilenameAck ∨ st = .waitDataAck) ∧ (e = .rxErr ∨ ∃ bytes, e = .dgram bytes))

/-- R160: of the accepted events presented together one is taken, reset before errors before data before tick (for
START in IDLE, which R160 does not name, see log entry 7); a port event that loses is presented again, a tick that
loses is not. -/
def Obligations.TakenEventHasPriority : Prop :=
  ∀ (s : State) (o : Offer) (rest : List Offer), s.inputs = o :: rest →
    (s.taken = none ↔ ∀ e ∈ o, accepts s.st e = false) ∧
    ∀ e, s.taken = some e →
      e ∈ o ∧ accepts s.st e = true ∧
      (.reset ∈ o → e = .reset) ∧
      (.reset ∉ o → ∀ x ∈ [Event.rxErr, .txErr, .srcErr], x ∈ o → accepts s.st x = true → e = x) ∧
      (s.st ≠ .idle → e = .tick → ∀ x ∈ o, accepts s.st x = true → x = .tick) ∧
      (∀ x ∈ o, x ≠ e → accepts s.st x = true → x ≠ .tick → x ≠ .reset →
        ∃ o' rest', s.consume.inputs = o' :: rest' ∧ x ∈ o') ∧
      (rest = [] → ∀ o' ∈ s.consume.inputs, .tick ∉ o' ∧ .reset ∉ o')

/-- R177 (R9, R33): where every event presented is refused, or is a tick outside the WAIT states, or nothing is
presented, nothing changes. -/
def Obligations.RefusedAndIgnoredChangeNothing : Prop :=
  ∀ s : State,
    (∀ o rest, s.inputs = o :: rest → ∀ e ∈ o, accepts s.st e = false ∨ e = .tick ∧ s.st.isWait = false) →
    step s = .next { s with inputs := s.consume.inputs, out := [] }

/-! ## The step -/

/-- When the bits a step fetches decode to a well-formed instruction, the step performs it (R45: one atomic
step, nothing around it). -/
def Obligations.StepRunsDecodedInstruction : Prop :=
  ∀ (s : State) (i : Instr) (rest : List Byte),
    decode (fetchBits s).1 (fetchBits s).2 = .ok (i, rest) → i.wf = true → step s = exec i s

/-- R70: the state register selects the step: performing the packet kind or the received class whose bits are
there is the state's own step. -/
def Obligations.StateSelectsStep : Prop :=
  ∀ s : State, step s = exec (stateInstr s.st) s

/-- The model's choice (log entry 5): an instruction that the state and the ports do not select takes nothing and
writes nothing. -/
def Obligations.UnselectedInstructionDoesNothing : Prop :=
  ∀ (s : State) (i : Instr),
    (i.format = .st3 ∧ i ≠ stateInstr s.st) ∨
    (∃ h, i.rxHeader = some h ∧ s.rxHeader ≠ some h) ∨
    (∃ h, i.txHeader = some h ∧ s.st.isSend = true ∧ (s.taken ≠ some .txOk ∨ s.txHeader ≠ some h)) ∨
    (∃ h, i.txHeader = some h ∧ s.st = .loadData ∧
      ∀ data eof, s.taken = some (.chunk data eof) → dataFlags s.toggle eof ≠ h.flags) ∨
    (∃ h, i.txHeader = some h ∧ s.st = .idle ∧ (h.flags ≠ 0x01#8 ∨ ∀ fname, s.taken ≠ some (.start fname))) ∨
    (i.format = .txHdr56 ∧ (s.st.isWait = true ∨ s.st.isAbsorbing = true)) →
    exec i s = .next { s with out := [] }

/-- R120, R121: the successors of each state. -/
def Obligations.SuccessorsAreTheTable : Prop :=
  ∀ s t : State, step s = .next t → s.taken ≠ some .reset →
    t.st ∈ (match s.st with
      | .idle => [Fsm.idle, .sendFilename]
      | .sendFilename => [.sendFilename, .waitFilenameAck, .fatal]
      | .waitFilenameAck => [.waitFilenameAck, .loadData, .sendFilename, .fatal]
      | .loadData => [.loadData, .sendData, .fatal]
      | .sendData => [.sendData, .waitDataAck, .fatal]
      | .waitDataAck => [.waitDataAck, .loadData, .terminated, .sendData, .fatal]
      | .terminated => [.terminated]
      | .fatal => [.fatal])

/-! ## Whole-machine rules -/

/-- The invariant holds at reset (R34, R35). -/
def Obligations.InvariantAtReset : Prop := Inv State.reset

/-- R35: every step keeps the invariant. -/
def Obligations.InvariantKeptByStep : Prop :=
  ∀ s t : State, Inv s → step s = .next t → Inv t

/-- Under the invariant a step always answers a next state: no read of a byte that holds no value (R24, R25, U6)
and no access outside a buffer (R47). -/
def Obligations.InvariantStepNeverStops : Prop :=
  ∀ s : State, Inv s → ∃ t, step s = .next t

/-- R95 (e), R144: under the invariant the packet in TX verifies itself and has 7 to 512 bytes. -/
def Obligations.PacketInTxAlwaysVerifies : Prop :=
  ∀ s : State, Inv s → s.st ≠ .idle →
    ∃ q, s.txData = .ok q ∧ verify q = true ∧ q.length = 7 + s.hdrLen.toNat ∧ q.length ≤ 512

/-- R31, R51 (a): a datagram leaves the block only on `tx.OK` in a SEND state, one a step, and it is exactly
`TX[0 : tx_len]`. -/
def Obligations.OnlyTheStoredPacketIsSent : Prop :=
  ∀ (s t : State) (bs : List Byte), step s = .next t → .txSend bs ∈ t.out →
    (s.st = .sendFilename ∨ s.st = .sendData) ∧ s.taken = some .txOk ∧
    memRead .tx s.tx 0 (7 + s.hdrLen.toNat) = .ok bs ∧ t.out = [.txSend bs]

/-- R99, R142: as long as a run stays in SEND and WAIT states, every datagram sent is the packet the run started
with. -/
def Obligations.RetransmissionsAreIdentical : Prop :=
  ∀ (n : Nat) (s t u : State) (bs : List Byte),
    (∀ v ∈ runStates n s, v.st.isSend = true ∨ v.st.isWait = true) →
    Sys2Proof.core.run n s = .next t → step t = .next u → .txSend bs ∈ u.out → s.txData = .ok bs

/-- R24, R25, R13 to R16: only START, CHUNK and reset change TX, the header registers and the expected flags;
only a datagram in a wait and reset change RXH. -/
def Obligations.WhoWritesTheBuffers : Prop :=
  ∀ s t : State, step s = .next t → s.taken ≠ some .reset →
    ((∀ fname, s.taken ≠ some (.start fname)) → (∀ data eof, s.taken ≠ some (.chunk data eof)) →
      t.tx = s.tx ∧ t.hdrLen = s.hdrLen ∧ t.hdrFlags = s.hdrFlags ∧ t.hdrCsum = s.hdrCsum ∧ t.expFlags = s.expFlags) ∧
    ((∀ bytes, s.taken ≠ some (.dgram bytes)) → t.rxh = s.rxh)

/-- R12, R17, R141: toggle and byte counter change together, in the step that accepts a data packet's
acknowledgment and in no other but reset. -/
def Obligations.ToggleAndCounterOnlyOnDataAck : Prop :=
  ∀ s t : State, step s = .next t → s.taken ≠ some .reset →
    if s.acceptsData = true then
      t.toggle = s.toggle ^^^ 1#1 ∧ t.bytesSent = s.bytesSent + s.hdrLen.setWidth 64
    else t.toggle = s.toggle ∧ t.bytesSent = s.bytesSent

/-- R35 I8, I9, R145: over a run without reset the toggle has flipped once per accepted data packet, and the
counter has grown by the payload bytes of those packets, modulo 2^64. -/
def Obligations.RunCountsAcceptedData : Prop :=
  ∀ (n : Nat) (s t : State), noReset n s → Sys2Proof.core.run n s = .next t →
    t.toggle = s.toggle + BitVec.ofNat 1 (runAccepted n s).1 ∧
    t.bytesSent = s.bytesSent + BitVec.ofNat 64 (runAccepted n s).2

/-- R111, R112: from `w` ticks left, fewer ticks only count down, and the `w`-th leads back to the SEND state. -/
def Obligations.DeadlineIsCountedOut : Prop :=
  ∀ (s : State) (w k : Nat) (rest : List Offer), s.st.isWait = true → s.waitTimer.toNat = w → 0 < w →
    s.inputs = List.replicate w [.tick] ++ rest →
    (0 < k → k < w → Sys2Proof.core.run k s = .next { s with
      waitTimer := BitVec.ofNat 16 (w - k), inputs := List.replicate (w - k) [.tick] ++ rest, out := [] }) ∧
    Sys2Proof.core.run w s = .next { s with
      waitTimer := 0, inputs := rest, out := [],
      st := if s.st = .waitFilenameAck then .sendFilename else .sendData }

/-- R112: the last tick ends the wait in the SEND state without a pulse; a timer at 0, which no reachable wait has,
is treated like 1; a mismatch at the same point leads to the same state but for RXH and its pulse. -/
def Obligations.TimeoutLooksLikeMismatch : Prop :=
  ∀ (s : State) (rest : List Offer), s.st.isWait = true → s.waitTimer.toNat ≤ 1 →
    let t := { s with
      waitTimer := 0, inputs := rest, out := [],
      st := if s.st = .waitFilenameAck then .sendFilename else .sendData }
    step { s with inputs := [.tick] :: rest } = .next t ∧
    ∀ bytes b rest', splitHeader bytes = some (b, rest') → b.b6 ≠ s.expFlags →
      step { s with inputs := [.dgram bytes] :: rest } =
        .next { t with rxh := s.rxh.write 0 b.toList, out := [.evBadAck b.b6] }

/-- R114, R154: the waiter looks at the flags byte alone: two datagrams of at least seven bytes with the same
seventh byte have the same effect but for RXH, which keeps their headers. -/
def Obligations.OnlyTheFlagsByteMatters : Prop :=
  ∀ (s t u : State) (x y : List Byte) (rest : List Offer), s.st.isWait = true → 7 ≤ x.length → 7 ≤ y.length →
    x[6]? = y[6]? →
    step { s with inputs := [.dgram x] :: rest } = .next t → step { s with inputs := [.dgram y] :: rest } = .next u →
    { t with rxh := u.rxh } = u

/-- R20, R21, R26, R28: the status view: the derived outputs of each state, and the registers it shows. -/
def Obligations.OutputsFollowTheState : Prop :=
  ∀ s : State,
    (s.status.busy = true ↔ s.st ≠ .idle ∧ s.st ≠ .terminated ∧ s.st ≠ .fatal) ∧
    (s.status.done = true ↔ s.st = .terminated) ∧ (s.status.fatal = true ↔ s.st = .fatal) ∧
    (s.status.cmdReady = true ↔ s.st = .idle) ∧ (s.status.srcReq = true ↔ s.st = .loadData) ∧
    (s.status.txValid = true ↔ s.st = .sendFilename ∨ s.st = .sendData) ∧
    (s.status.rxReady = true ↔ s.st = .waitFilenameAck ∨ s.st = .waitDataAck) ∧
    (s.status.closed = true ↔ s.st = .terminated ∨ s.st = .fatal) ∧
    Fsm.ofCode s.status.st = s.st ∧ s.status.errCause = s.errCause ∧ s.status.toggle = s.toggle ∧
    s.status.bytesSent = s.bytesSent ∧ s.status.hdrLen = s.hdrLen ∧ s.status.hdrFlags = s.hdrFlags ∧
    s.status.hdrCsum = s.hdrCsum ∧ s.status.expFlags = s.expFlags ∧ s.status.waitTimer = s.waitTimer ∧
    s.status.txLen = 7 + s.hdrLen.toNat ∧ s.status.rxFlags = s.rxh.byte 6
end

