-- ==== Sys2Proof/Laws/Memory.lean ====
section
/-! SUPPORT. What MemWrite and MemRead do to a buffer: a read after a write, everything else unchanged, and the
canonical form kept. -/

namespace Sys2Proof.Machine

@[simp] theorem size_tx : Space.size .tx = 512 := rfl
@[simp] theorem size_rxh : Space.size .rxh = 7 := rfl

/-! ## One byte -/

@[simp] theorem byte_nil (a : Nat) : Memory.byte [] a = none := rfl

theorem byte_append (m m' : Memory) (a : Nat) :
    Memory.byte (m ++ m') a = (Memory.byte m a).or (Memory.byte m' a) := by
  induction m with
  | nil => rfl
  | cons c m ih =>
    obtain ⟨k, v⟩ := c
    simp only [List.cons_append, Memory.byte, ih]
    split <;> simp

/-- Filtering by address keeps the bytes of the addresses kept and drops the others. -/
theorem byte_filter (m : Memory) (keep : Nat → Bool) (a : Nat) :
    Memory.byte (m.filter fun c => keep c.1) a = if keep a then Memory.byte m a else none := by
  induction m with
  | nil => simp
  | cons c m ih =>
    obtain ⟨k, v⟩ := c
    by_cases hk : keep k
    · simp only [List.filter_cons, hk, if_true, Memory.byte, ih]
      by_cases ha : k = a
      · subst ha; simp [hk]
      · simp [ha]
    · simp only [List.filter_cons, hk, Memory.byte]
      by_cases ha : k = a
      · subst ha; simp [ih, hk]
      · simp [ih, ha]

theorem byte_cellsAt (bs : List Byte) (a x : Nat) :
    Memory.byte (Memory.cellsAt a bs) x = if a ≤ x then bs[x - a]? else none := by
  induction bs generalizing a with
  | nil => simp [Memory.cellsAt]
  | cons b bs ih =>
    simp only [Memory.cellsAt, Memory.byte, ih]
    by_cases h : a = x
    · subst h; simp
    · by_cases h1 : a + 1 ≤ x
      · obtain ⟨d, rfl⟩ : ∃ d, x = a + 1 + d := ⟨x - (a + 1), by omega⟩
        have e1 : a + 1 + d - a = d + 1 := by omega
        have e2 : a ≤ a + 1 + d := by omega
        simp [h, e1, e2]
      · have : ¬a ≤ x := by omega
        simp [h, h1, this]

/-- A write sets its own bytes and leaves every other address alone. -/
theorem byte_write (m : Memory) (a x : Nat) (bs : List Byte) :
    Memory.byte (m.write a bs) x = if a ≤ x ∧ x < a + bs.length then bs[x - a]? else Memory.byte m x := by
  have h1 := byte_filter m (fun k => decide (k < a)) x
  have h2 := byte_filter m (fun k => decide (a + bs.length ≤ k)) x
  simp only [Memory.write, byte_append, h1, h2, byte_cellsAt]
  by_cases hlt : x < a
  · have h3 : ¬a ≤ x := by omega
    have h4 : ¬a + bs.length ≤ x := by omega
    simp [hlt, h3, h4]
  · by_cases hge : a + bs.length ≤ x
    · have h3 : bs.length ≤ x - a := by omega
      have h4 : ¬x < a + bs.length := by omega
      simp [hlt, hge, h3, h4]
    · have h3 : x - a < bs.length := by omega
      have h4 : a ≤ x := by omega
      have h5 : x < a + bs.length := by omega
      simp [hlt, hge, h3, h4, h5]

/-! ## Canonical form -/

theorem mem_cellsAt_key (bs : List Byte) (a : Nat) (c : Host.Cell) (h : c ∈ Memory.cellsAt a bs) :
    a ≤ c.1 ∧ c.1 < a + bs.length := by
  induction bs generalizing a with
  | nil => simp [Memory.cellsAt] at h
  | cons b bs ih =>
    simp only [Memory.cellsAt, List.mem_cons] at h
    obtain rfl | h := h
    · simp
    · have := ih (a + 1) h
      simp only [List.length_cons]
      omega

theorem cellsAt_sorted (bs : List Byte) (a : Nat) :
    List.Pairwise (fun x y : Host.Cell => x.1 < y.1) (Memory.cellsAt a bs) := by
  induction bs generalizing a with
  | nil => exact .nil
  | cons b bs ih =>
    refine List.pairwise_cons.2 ⟨fun c hc => ?_, ih (a + 1)⟩
    have := mem_cellsAt_key bs (a + 1) c hc
    show a < c.1
    omega

/-- A write inside the space keeps the canonical form. -/
theorem write_wf {sp : Space} {m : Memory} (h : Memory.wf sp m) (a : Nat) (bs : List Byte)
    (hb : a + bs.length ≤ sp.size) : Memory.wf sp (m.write a bs) := by
  obtain ⟨hs, hk⟩ := h
  constructor
  · refine List.pairwise_append.2 ⟨List.pairwise_append.2 ⟨hs.filter _, cellsAt_sorted bs a, ?_⟩, hs.filter _, ?_⟩
    · intro x hx y hy
      have h1 := (List.mem_filter.1 hx).2
      have h2 := mem_cellsAt_key bs a y hy
      simp only [decide_eq_true_eq] at h1
      omega
    · intro x hx y hy
      have h2 := (List.mem_filter.1 hy).2
      simp only [decide_eq_true_eq] at h2
      obtain hx | hx := List.mem_append.1 hx
      · have h1 := (List.mem_filter.1 hx).2
        simp only [decide_eq_true_eq] at h1
        omega
      · have h1 := mem_cellsAt_key bs a x hx
        omega
  · intro c hc
    obtain hc | hc := List.mem_append.1 hc
    · obtain hc | hc := List.mem_append.1 hc
      · exact hk c (List.mem_filter.1 hc).1
      · have := mem_cellsAt_key bs a c hc
        omega
    · exact hk c (List.mem_filter.1 hc).1

/-! ## Reading a byte string -/

/-- MemRead answers exactly the bytes at its addresses, all inside the space. -/
theorem memRead_ok_iff {sp : Space} {m : Memory} {a n : Nat} {bs : List Byte} :
    memRead sp m a n = .ok bs ↔ bs.length = n ∧ ∀ i < n, a + i < sp.size ∧ m.byte (a + i) = bs[i]? := by
  induction n generalizing a bs with
  | zero =>
    simp only [memRead, Except.ok.injEq]
    constructor
    · rintro rfl; simp
    · rintro ⟨h, -⟩; exact (List.length_eq_zero_iff.1 h).symm
  | succ n ih =>
    simp only [memRead, readByte]
    by_cases ha : a < sp.size
    · cases hb : m.byte a with
      | none =>
        simp only [ha, if_true]
        constructor
        · intro h; cases h
        · rintro ⟨hl, h⟩
          have h0 := (h 0 (by omega)).2
          cases bs with
          | nil => simp at hl
          | cons b bs => simp [hb] at h0
      | some b =>
        simp only [ha, if_true]
        cases hr : memRead sp m (a + 1) n with
        | error f =>
          constructor
          · intro h; cases h
          · rintro ⟨hl, h⟩
            cases bs with
            | nil => simp at hl
            | cons b' bs =>
              have : memRead sp m (a + 1) n = .ok bs := ih.2 ⟨by simpa using hl, fun i hi => by
                have := h (i + 1) (by omega)
                rw [show a + 1 + i = a + (i + 1) by omega]
                simpa using this⟩
              rw [hr] at this; cases this
        | ok tail =>
          simp only [Except.ok.injEq]
          constructor
          · rintro rfl
            obtain ⟨hl, h⟩ := ih.1 hr
            refine ⟨by simp [hl], fun i hi => ?_⟩
            cases i with
            | zero => simpa [ha] using hb
            | succ i =>
              have := h i (by omega)
              rw [show a + (i + 1) = a + 1 + i by omega]
              simpa using this
          · rintro ⟨hl, h⟩
            cases bs with
            | nil => simp at hl
            | cons b' bs =>
              have h0 := (h 0 (by omega)).2
              simp [hb] at h0
              have : memRead sp m (a + 1) n = .ok bs := ih.2 ⟨by simpa using hl, fun i hi => by
                have := h (i + 1) (by omega)
                rw [show a + 1 + i = a + (i + 1) by omega]
                simpa using this⟩
              rw [hr] at this
              simp only [Except.ok.injEq] at this
              rw [h0, this]
    · simp only [ha, if_false]
      constructor
      · intro h; cases h
      · rintro ⟨-, h⟩
        have := (h 0 (by omega)).1
        simp at this
        omega

theorem memRead_length {sp : Space} {m : Memory} {a n : Nat} {bs : List Byte} (h : memRead sp m a n = .ok bs) :
    bs.length = n := (memRead_ok_iff.1 h).1

/-- A byte string written inside the space is read back. -/
theorem memRead_write {sp : Space} (m : Memory) (a : Nat) (bs : List Byte) (h : a + bs.length ≤ sp.size) :
    memRead sp (m.write a bs) a bs.length = .ok bs := by
  refine memRead_ok_iff.2 ⟨rfl, fun i hi => ⟨by omega, ?_⟩⟩
  rw [byte_write, if_pos ⟨by omega, by omega⟩]
  congr 1; omega

/-- The front of a byte string read is what a shorter read answers. -/
theorem memRead_take {sp : Space} {m : Memory} {a n k : Nat} {bs : List Byte} (h : memRead sp m a n = .ok bs)
    (hk : k ≤ n) : memRead sp m a k = .ok (bs.take k) := by
  obtain ⟨hl, hb⟩ := memRead_ok_iff.1 h
  refine memRead_ok_iff.2 ⟨by simp [hl, hk], fun i hi => ?_⟩
  rw [List.getElem?_take_of_lt hi]
  exact hb i (by omega)

end Sys2Proof.Machine
end

