-- ==== Sys2Proof/Laws/Packet.lean ====
section
/-! SUPPORT. The shape of byte strings that begin with a header, and of assembled packets. -/

namespace Sys2Proof

@[simp] theorem toList_length (b : HeaderBytes) : b.toList.length = 7 := rfl

@[simp] theorem splitHeader_toList (b : HeaderBytes) (rest : List Byte) :
    splitHeader (b.toList ++ rest) = some (b, rest) := rfl

theorem splitHeader_some {bs rest : List Byte} {b : HeaderBytes} (h : splitHeader bs = some (b, rest)) :
    bs = b.toList ++ rest := by
  match bs, h with
  | b0 :: b1 :: b2 :: b3 :: b4 :: b5 :: b6 :: r, h =>
    simp only [splitHeader, Option.some.injEq, Prod.mk.injEq] at h
    obtain ⟨rfl, rfl⟩ := h
    rfl

/-- A byte string has a header exactly when it has seven bytes (R106, R107). -/
theorem splitHeader_none_iff {bs : List Byte} : splitHeader bs = none ↔ bs.length < 7 := by
  constructor
  · intro h
    match bs with
    | [] | [_] | [_, _] | [_, _, _] | [_, _, _, _] | [_, _, _, _, _] | [_, _, _, _, _, _] => simp
    | _ :: _ :: _ :: _ :: _ :: _ :: _ :: _ => simp [splitHeader] at h
  · intro h
    match bs, h with
    | [], _ | [_], _ | [_, _], _ | [_, _, _], _ | [_, _, _, _], _ | [_, _, _, _, _], _ | [_, _, _, _, _, _], _ => rfl
    | _ :: _ :: _ :: _ :: _ :: _ :: _ :: _, h => simp at h; omega

end Sys2Proof

namespace Sys2Proof.Machine

@[simp] theorem headerLength_eq : Config.headerLength = 7 := rfl
@[simp] theorem maxPayload_eq : Config.maxPayload = 505 := rfl

/-- An assembled packet: checksum, length, flags, payload (R24, R94). -/
theorem packetBytes_eq (f : Byte) (p : List Byte) :
    packetBytes f p = toBe32 (packetChecksum f p) ++ (toBe16 (BitVec.ofNat 16 p.length) ++ [f] ++ p) := rfl

theorem packetChecksum_eq (f : Byte) (p : List Byte) :
    packetChecksum f p = crc32 (toBe16 (BitVec.ofNat 16 p.length) ++ [f] ++ p) := rfl

@[simp] theorem packetBytes_length (f : Byte) (p : List Byte) : (packetBytes f p).length = 7 + p.length := by
  rw [packetBytes_eq]
  simp only [List.length_append, toBe32, toBe16, List.length_cons, List.length_nil]
  omega

/-- An assembled packet begins with its own header (R94: the splice is the re-encoded header). -/
theorem packetBytes_header (f : Byte) (p : List Byte) :
    packetBytes f p = (encodeHeader ⟨packetChecksum f p, BitVec.ofNat 16 p.length, f⟩).toList ++ p := rfl

/-- What ASSEMBLE leaves at the front of TX (R94). -/
theorem assemble_txData (f : Byte) (p : List Byte) (s : State) (h : p.length ≤ 505) :
    (assemble f p s).txData = .ok (packetBytes f p) := by
  have hl : (assemble f p s).txLen = (packetBytes f p).length := by
    have : p.length < 2 ^ 16 := by omega
    simp only [State.txLen, packetBytes_length, headerLength_eq]
    show 7 + (BitVec.ofNat 16 p.length).toNat = 7 + p.length
    rw [BitVec.toNat_ofNat, Nat.mod_eq_of_lt this]
  rw [State.txData, hl]
  exact memRead_write _ 0 _ (by simp only [packetBytes_length, size_tx]; omega)

/-- ASSEMBLE keeps the canonical form of TX. -/
theorem assemble_wf (f : Byte) (p : List Byte) (s : State) (h : p.length ≤ 505) (hw : Memory.wf .tx s.tx) :
    Memory.wf .tx (assemble f p s).tx :=
  write_wf hw 0 _ (by simp only [packetBytes_length, size_tx]; omega)

/-- Capturing a header keeps the canonical form of RXH. -/
theorem capture_wf (b : HeaderBytes) (m : Memory) (hw : Memory.wf .rxh m) : Memory.wf .rxh (m.write 0 b.toList) :=
  write_wf hw 0 _ (by simp)

end Sys2Proof.Machine
end

