-- ==== Sys2Proof/Laws/State.lean ====
section
/-! SUPPORT. One lemma per field per update of the state, so that no proof unfolds a record update. -/

namespace Sys2Proof.Machine

/-! ## consume -/

@[simp] theorem consume_st (s : State) : s.consume.st = s.st := rfl
@[simp] theorem consume_toggle (s : State) : s.consume.toggle = s.toggle := rfl
@[simp] theorem consume_hdrLen (s : State) : s.consume.hdrLen = s.hdrLen := rfl
@[simp] theorem consume_hdrFlags (s : State) : s.consume.hdrFlags = s.hdrFlags := rfl
@[simp] theorem consume_hdrCsum (s : State) : s.consume.hdrCsum = s.hdrCsum := rfl
@[simp] theorem consume_expFlags (s : State) : s.consume.expFlags = s.expFlags := rfl
@[simp] theorem consume_bytesSent (s : State) : s.consume.bytesSent = s.bytesSent := rfl
@[simp] theorem consume_waitTimer (s : State) : s.consume.waitTimer = s.waitTimer := rfl
@[simp] theorem consume_errCause (s : State) : s.consume.errCause = s.errCause := rfl
@[simp] theorem consume_tx (s : State) : s.consume.tx = s.tx := rfl
@[simp] theorem consume_rxh (s : State) : s.consume.rxh = s.rxh := rfl
@[simp] theorem consume_inputs (s : State) : s.consume.inputs = nextInputs s.st s.inputs := rfl
@[simp] theorem consume_out (s : State) : s.consume.out = [] := rfl

/-! ## notSelected -/

@[simp] theorem notSelected_st (s : State) : s.notSelected.st = s.st := rfl
@[simp] theorem notSelected_toggle (s : State) : s.notSelected.toggle = s.toggle := rfl
@[simp] theorem notSelected_hdrLen (s : State) : s.notSelected.hdrLen = s.hdrLen := rfl
@[simp] theorem notSelected_hdrFlags (s : State) : s.notSelected.hdrFlags = s.hdrFlags := rfl
@[simp] theorem notSelected_hdrCsum (s : State) : s.notSelected.hdrCsum = s.hdrCsum := rfl
@[simp] theorem notSelected_expFlags (s : State) : s.notSelected.expFlags = s.expFlags := rfl
@[simp] theorem notSelected_bytesSent (s : State) : s.notSelected.bytesSent = s.bytesSent := rfl
@[simp] theorem notSelected_waitTimer (s : State) : s.notSelected.waitTimer = s.waitTimer := rfl
@[simp] theorem notSelected_errCause (s : State) : s.notSelected.errCause = s.errCause := rfl
@[simp] theorem notSelected_tx (s : State) : s.notSelected.tx = s.tx := rfl
@[simp] theorem notSelected_rxh (s : State) : s.notSelected.rxh = s.rxh := rfl
@[simp] theorem notSelected_inputs (s : State) : s.notSelected.inputs = s.inputs := rfl
@[simp] theorem notSelected_out (s : State) : s.notSelected.out = [] := rfl

/-! ## raiseFatal -/

@[simp] theorem raiseFatal_st (cause : FatalCause) (s : State) : (raiseFatal cause s).st = .fatal := rfl
@[simp] theorem raiseFatal_toggle (cause : FatalCause) (s : State) : (raiseFatal cause s).toggle = s.toggle := rfl
@[simp] theorem raiseFatal_hdrLen (cause : FatalCause) (s : State) : (raiseFatal cause s).hdrLen = s.hdrLen := rfl
@[simp] theorem raiseFatal_hdrFlags (cause : FatalCause) (s : State) : (raiseFatal cause s).hdrFlags = s.hdrFlags := rfl
@[simp] theorem raiseFatal_hdrCsum (cause : FatalCause) (s : State) : (raiseFatal cause s).hdrCsum = s.hdrCsum := rfl
@[simp] theorem raiseFatal_expFlags (cause : FatalCause) (s : State) : (raiseFatal cause s).expFlags = s.expFlags := rfl
@[simp] theorem raiseFatal_bytesSent (cause : FatalCause) (s : State) : (raiseFatal cause s).bytesSent = s.bytesSent := rfl
@[simp] theorem raiseFatal_waitTimer (cause : FatalCause) (s : State) : (raiseFatal cause s).waitTimer = 0 := rfl
@[simp] theorem raiseFatal_errCause (cause : FatalCause) (s : State) : (raiseFatal cause s).errCause = cause.code := rfl
@[simp] theorem raiseFatal_tx (cause : FatalCause) (s : State) : (raiseFatal cause s).tx = s.tx := rfl
@[simp] theorem raiseFatal_rxh (cause : FatalCause) (s : State) : (raiseFatal cause s).rxh = s.rxh := rfl
@[simp] theorem raiseFatal_inputs (cause : FatalCause) (s : State) : (raiseFatal cause s).inputs = s.inputs := rfl
@[simp] theorem raiseFatal_out (cause : FatalCause) (s : State) : (raiseFatal cause s).out = s.out := rfl

/-! ## assemble -/

@[simp] theorem assemble_st (f : Byte) (p : List Byte) (s : State) : (assemble f p s).st = s.st := rfl
@[simp] theorem assemble_toggle (f : Byte) (p : List Byte) (s : State) : (assemble f p s).toggle = s.toggle := rfl
@[simp] theorem assemble_hdrLen (f : Byte) (p : List Byte) (s : State) : (assemble f p s).hdrLen = BitVec.ofNat 16 p.length := rfl
@[simp] theorem assemble_hdrFlags (f : Byte) (p : List Byte) (s : State) : (assemble f p s).hdrFlags = f := rfl
@[simp] theorem assemble_hdrCsum (f : Byte) (p : List Byte) (s : State) : (assemble f p s).hdrCsum = packetChecksum f p := rfl
@[simp] theorem assemble_expFlags (f : Byte) (p : List Byte) (s : State) : (assemble f p s).expFlags = s.expFlags := rfl
@[simp] theorem assemble_bytesSent (f : Byte) (p : List Byte) (s : State) : (assemble f p s).bytesSent = s.bytesSent := rfl
@[simp] theorem assemble_waitTimer (f : Byte) (p : List Byte) (s : State) : (assemble f p s).waitTimer = s.waitTimer := rfl
@[simp] theorem assemble_errCause (f : Byte) (p : List Byte) (s : State) : (assemble f p s).errCause = s.errCause := rfl
@[simp] theorem assemble_tx (f : Byte) (p : List Byte) (s : State) : (assemble f p s).tx = s.tx.write 0 (packetBytes f p) := rfl
@[simp] theorem assemble_rxh (f : Byte) (p : List Byte) (s : State) : (assemble f p s).rxh = s.rxh := rfl
@[simp] theorem assemble_inputs (f : Byte) (p : List Byte) (s : State) : (assemble f p s).inputs = s.inputs := rfl
@[simp] theorem assemble_out (f : Byte) (p : List Byte) (s : State) : (assemble f p s).out = s.out := rfl

/-! ## buildFilename -/

@[simp] theorem buildFilename_st (p : List Byte) (s : State) : (buildFilename p s).st = .sendFilename := rfl
@[simp] theorem buildFilename_toggle (p : List Byte) (s : State) : (buildFilename p s).toggle = s.toggle := rfl
@[simp] theorem buildFilename_hdrLen (p : List Byte) (s : State) : (buildFilename p s).hdrLen = BitVec.ofNat 16 p.length := rfl
@[simp] theorem buildFilename_hdrFlags (p : List Byte) (s : State) : (buildFilename p s).hdrFlags = Config.fFilename := rfl
@[simp] theorem buildFilename_hdrCsum (p : List Byte) (s : State) : (buildFilename p s).hdrCsum = packetChecksum Config.fFilename p := rfl
@[simp] theorem buildFilename_expFlags (p : List Byte) (s : State) : (buildFilename p s).expFlags = 0x00#8 := rfl
@[simp] theorem buildFilename_bytesSent (p : List Byte) (s : State) : (buildFilename p s).bytesSent = s.bytesSent := rfl
@[simp] theorem buildFilename_waitTimer (p : List Byte) (s : State) : (buildFilename p s).waitTimer = s.waitTimer := rfl
@[simp] theorem buildFilename_errCause (p : List Byte) (s : State) : (buildFilename p s).errCause = s.errCause := rfl
@[simp] theorem buildFilename_tx (p : List Byte) (s : State) : (buildFilename p s).tx = s.tx.write 0 (packetBytes Config.fFilename p) := rfl
@[simp] theorem buildFilename_rxh (p : List Byte) (s : State) : (buildFilename p s).rxh = s.rxh := rfl
@[simp] theorem buildFilename_inputs (p : List Byte) (s : State) : (buildFilename p s).inputs = s.inputs := rfl
@[simp] theorem buildFilename_out (p : List Byte) (s : State) : (buildFilename p s).out = s.out := rfl

/-! ## buildData -/

@[simp] theorem buildData_st (f : Byte) (p : List Byte) (s : State) : (buildData f p s).st = .sendData := rfl
@[simp] theorem buildData_toggle (f : Byte) (p : List Byte) (s : State) : (buildData f p s).toggle = s.toggle := rfl
@[simp] theorem buildData_hdrLen (f : Byte) (p : List Byte) (s : State) : (buildData f p s).hdrLen = BitVec.ofNat 16 p.length := rfl
@[simp] theorem buildData_hdrFlags (f : Byte) (p : List Byte) (s : State) : (buildData f p s).hdrFlags = f := rfl
@[simp] theorem buildData_hdrCsum (f : Byte) (p : List Byte) (s : State) : (buildData f p s).hdrCsum = packetChecksum f p := rfl
@[simp] theorem buildData_expFlags (f : Byte) (p : List Byte) (s : State) : (buildData f p s).expFlags = f := rfl
@[simp] theorem buildData_bytesSent (f : Byte) (p : List Byte) (s : State) : (buildData f p s).bytesSent = s.bytesSent := rfl
@[simp] theorem buildData_waitTimer (f : Byte) (p : List Byte) (s : State) : (buildData f p s).waitTimer = s.waitTimer := rfl
@[simp] theorem buildData_errCause (f : Byte) (p : List Byte) (s : State) : (buildData f p s).errCause = s.errCause := rfl
@[simp] theorem buildData_tx (f : Byte) (p : List Byte) (s : State) : (buildData f p s).tx = s.tx.write 0 (packetBytes f p) := rfl
@[simp] theorem buildData_rxh (f : Byte) (p : List Byte) (s : State) : (buildData f p s).rxh = s.rxh := rfl
@[simp] theorem buildData_inputs (f : Byte) (p : List Byte) (s : State) : (buildData f p s).inputs = s.inputs := rfl
@[simp] theorem buildData_out (f : Byte) (p : List Byte) (s : State) : (buildData f p s).out = s.out := rfl

/-! ## acceptData -/

@[simp] theorem acceptData_st (s : State) : (acceptData s).st = if hasFin s.hdrFlags then .terminated else .loadData := rfl
@[simp] theorem acceptData_toggle (s : State) : (acceptData s).toggle = s.toggle ^^^ 1#1 := rfl
@[simp] theorem acceptData_hdrLen (s : State) : (acceptData s).hdrLen = s.hdrLen := rfl
@[simp] theorem acceptData_hdrFlags (s : State) : (acceptData s).hdrFlags = s.hdrFlags := rfl
@[simp] theorem acceptData_hdrCsum (s : State) : (acceptData s).hdrCsum = s.hdrCsum := rfl
@[simp] theorem acceptData_expFlags (s : State) : (acceptData s).expFlags = s.expFlags := rfl
@[simp] theorem acceptData_bytesSent (s : State) : (acceptData s).bytesSent = s.bytesSent + s.hdrLen.setWidth 64 := rfl
@[simp] theorem acceptData_waitTimer (s : State) : (acceptData s).waitTimer = s.waitTimer := rfl
@[simp] theorem acceptData_errCause (s : State) : (acceptData s).errCause = s.errCause := rfl
@[simp] theorem acceptData_tx (s : State) : (acceptData s).tx = s.tx := rfl
@[simp] theorem acceptData_rxh (s : State) : (acceptData s).rxh = s.rxh := rfl
@[simp] theorem acceptData_inputs (s : State) : (acceptData s).inputs = s.inputs := rfl
@[simp] theorem acceptData_out (s : State) : (acceptData s).out = s.out := rfl

/-! ## resetEngine -/

@[simp] theorem resetEngine_inputs (s : State) : (resetEngine s).inputs = s.inputs := rfl
@[simp] theorem resetEngine_st (s : State) : (resetEngine s).st = State.reset.st := rfl
@[simp] theorem resetEngine_toggle (s : State) : (resetEngine s).toggle = State.reset.toggle := rfl
@[simp] theorem resetEngine_hdrLen (s : State) : (resetEngine s).hdrLen = State.reset.hdrLen := rfl
@[simp] theorem resetEngine_hdrFlags (s : State) : (resetEngine s).hdrFlags = State.reset.hdrFlags := rfl
@[simp] theorem resetEngine_hdrCsum (s : State) : (resetEngine s).hdrCsum = State.reset.hdrCsum := rfl
@[simp] theorem resetEngine_expFlags (s : State) : (resetEngine s).expFlags = State.reset.expFlags := rfl
@[simp] theorem resetEngine_bytesSent (s : State) : (resetEngine s).bytesSent = State.reset.bytesSent := rfl
@[simp] theorem resetEngine_waitTimer (s : State) : (resetEngine s).waitTimer = State.reset.waitTimer := rfl
@[simp] theorem resetEngine_errCause (s : State) : (resetEngine s).errCause = State.reset.errCause := rfl
@[simp] theorem resetEngine_tx (s : State) : (resetEngine s).tx = State.reset.tx := rfl
@[simp] theorem resetEngine_rxh (s : State) : (resetEngine s).rxh = State.reset.rxh := rfl
@[simp] theorem resetEngine_out (s : State) : (resetEngine s).out = State.reset.out := rfl

end Sys2Proof.Machine
end

