-- ==== Sys2Proof/Laws/Fetch.lean ====
section
/-! SUPPORT. Which bits a step fetches, what the decoder makes of them, what the packet kinds and received classes
then do, and how a run unfolds. -/

namespace Sys2Proof

/-- A received header is read as the class that carries that header (R67). -/
theorem decodeRx_header (h : Header) : (decodeRx h).rxHeader = some h := by
  obtain ⟨c, l, f⟩ := h
  simp only [decodeRx]
  split_ifs <;> simp_all [Instr.rxHeader]

/-- A transmit header is read as the kind that carries that header (R66). -/
theorem decodeTx_header {h : Header} {i : Instr} (hd : decodeTx h = .ok i) : i.txHeader = some h := by
  obtain ⟨c, l, f⟩ := h
  simp only [decodeTx] at hd
  split_ifs at hd with h1 h2 h3 h4 h5 <;> simp only [Except.ok.injEq] at hd <;> subst hd <;>
    simp_all [Instr.txHeader]

theorem decode_rx (b : HeaderBytes) : decode .rxHdr56 b.toList = .ok (decodeRx (decodeHeader b), []) := rfl

theorem decode_tx {b : HeaderBytes} {i : Instr} (h : decodeTx (decodeHeader b) = .ok i) :
    decode .txHdr56 b.toList = .ok (i, []) := by
  show (match decodeTx (decodeHeader b) with | .ok i => Except.ok (i, []) | .error e => .error e) = _
  rw [h]

/-- Seven bytes that decode as a transmit kind are that kind's header. -/
theorem decode_tx_some {bs rest : List Byte} {i : Instr} (h : decode .txHdr56 bs = .ok (i, rest)) :
    ∃ b, splitHeader bs = some (b, rest) ∧ decodeTx (decodeHeader b) = .ok i := by
  simp only [decode] at h
  cases hs : splitHeader bs with
  | none => rw [hs] at h; cases h
  | some q =>
    obtain ⟨b, r⟩ := q
    simp only [hs] at h
    cases hd : decodeTx (decodeHeader b) with
    | error e => rw [hd] at h; cases h
    | ok i' =>
      simp only [hd, Except.ok.injEq, Prod.mk.injEq] at h
      obtain ⟨rfl, rfl⟩ := h
      exact ⟨b, rfl, hd⟩

namespace Machine

/-- The state code is read as the step kind of the state (R70). -/
theorem decode_code (st : Fsm) : decode .st3 [st.code.setWidth 8] = .ok (stateInstr st, []) := by cases st <;> rfl

/-- The three places a step's bits come from. -/
theorem fetchBits_cases (s : State) :
    (∃ bs, s.st.isSend = true ∧ s.taken = some .txOk ∧ memRead .tx s.tx 0 7 = .ok bs ∧
      fetchBits s = (.txHdr56, bs)) ∨
    (∃ bytes b rest, s.st.isWait = true ∧ s.taken = some (.dgram bytes) ∧ splitHeader bytes = some (b, rest) ∧
      fetchBits s = (.rxHdr56, b.toList)) ∨
    fetchBits s = (.st3, [s.st.code.setWidth 8]) := by
  unfold fetchBits
  split
  · rename_i hv ht
    cases hm : memRead .tx s.tx 0 Config.headerLength with
    | error f => exact .inr (.inr rfl)
    | ok bs => exact .inl ⟨bs, hv, ht, hm, rfl⟩
  · rename_i bytes hr ht
    cases hs : splitHeader bytes with
    | none => exact .inr (.inr rfl)
    | some r => exact .inr (.inl ⟨_, r.1, r.2, hr, ht, hs, rfl⟩)
  · exact .inr (.inr rfl)

/-- A received class receives its header, in either WAIT state (R67). -/
theorem exec_rx {i : Instr} {h : Header} (hi : i.rxHeader = some h) (s : State) : exec i s = receiveHeader h s := by
  cases i <;> simp only [Instr.rxHeader, Option.some.injEq, reduceCtorEq] at hi <;> subst hi <;> rfl

/-- A packet kind in a SEND state is handed over (R66). -/
theorem exec_tx {i : Instr} {h : Header} (hi : i.txHeader = some h) {s : State} (hs : s.st.isSend = true) :
    exec i s = handOver h s := by
  cases i <;> simp only [Instr.txHeader, Option.some.injEq, reduceCtorEq] at hi <;> subst hi <;>
    cases hst : s.st <;> simp only [hst, Fsm.isSend, Bool.false_eq_true] at hs <;>
    simp only [exec, execFname, execDataA, execData, execDataAF, execDataF, dataPacket, hst] <;> rfl

/-- Handing over: the packet leaves if it is the one in TX, else nothing is selected. -/
theorem handOver_cases (h : Header) (s : State) :
    (s.sends h = true ∧ handOver h s = sendPacket s.consume) ∨
    (s.sends h = false ∧ handOver h s = .next s.notSelected) := by
  unfold handOver
  cases s.sends h <;> simp

/-- Receiving: the header is judged if it is the one received, else nothing is selected. -/
theorem receiveHeader_cases (h : Header) (s : State) :
    (s.rxHeader = some h ∧
      receiveHeader h s = .next (waitResult s.st (awaitHeader (encodeHeader h) s.consume))) ∨
    (s.rxHeader ≠ some h ∧ receiveHeader h s = .next s.notSelected) := by
  by_cases hr : s.rxHeader = some h
  · exact .inl ⟨hr, by simp [receiveHeader, hr]⟩
  · exact .inr ⟨hr, by simp [receiveHeader, hr]⟩

/-- The received header, where there is one (R107). -/
theorem rxHeader_eq {s : State} {bytes rest : List Byte} {b : HeaderBytes} (hw : s.st.isWait = true)
    (ht : s.taken = some (.dgram bytes)) (hs : splitHeader bytes = some (b, rest)) :
    s.rxHeader = some (decodeHeader b) := by
  have hr : s.rxReady = true := hw
  simp [State.rxHeader, hr, ht, headerOf, hs]

/-- A packet is handed over where its header stands at the front of TX. -/
theorem sends_eq {s : State} {bs rest : List Byte} {b : HeaderBytes} (hs : s.st.isSend = true)
    (ht : s.taken = some .txOk) (hm : memRead .tx s.tx 0 7 = .ok bs) (hb : splitHeader bs = some (b, rest)) :
    s.sends (decodeHeader b) = true := by
  have hv : s.txValid = true := hs
  simp [State.sends, hv, ht, State.txHeader, hm, headerOf, hb]

/-- The packet in TX depends on TX and its length alone. -/
theorem txData_congr {s t : State} (h1 : t.tx = s.tx) (h2 : t.hdrLen = s.hdrLen) : t.txData = s.txData := by
  simp only [State.txData, State.txLen, h1, h2]

/-! ## Runs -/

theorem run_next (n : Nat) {s u : State} (h : step s = .next u) : core.run (n + 1) s = core.run n u := by
  have : core.step s = .next u := h
  simp only [Host.Core.run, this]

/-- A run that answers a next state begins with a step that does. -/
theorem run_stop (n : Nat) {s t : State} (h : core.run (n + 1) s = .next t) : ∃ u, step s = .next u := by
  simp only [Host.Core.run] at h
  cases hs : core.step s with
  | next u => exact ⟨u, hs⟩
  | fault r => rw [hs] at h; cases h
  | refused r => rw [hs] at h; cases h

end Machine

end Sys2Proof
end

