-- ==== Sys2Proof/Laws/Input.lean ====
section
/-! SUPPORT. What the choice of a step's event answers. -/

namespace Sys2Proof.Machine

/-- Nothing is picked exactly where everything presented is refused. -/
theorem pick_none_iff {st : Fsm} {o : Offer} : pick st o = none ↔ ∀ e ∈ o, accepts st e = false := by
  induction o with
  | nil => simp [pick]
  | cons y ys ih =>
    by_cases ha : accepts st y = true
    · simp only [pick, ha, if_true]
      cases hp : pick st ys <;> simp [ha]
      split <;> simp
    · simp only [pick, ha, List.mem_cons, forall_eq_or_imp]
      simpa [ha] using ih

/-- The event picked was presented, is accepted, and none accepted comes before it in R160's order. -/
theorem pick_some {st : Fsm} {o : Offer} {e : Event} (h : pick st o = some e) :
    e ∈ o ∧ accepts st e = true ∧ ∀ x ∈ o, accepts st x = true → e.rank ≤ x.rank := by
  induction o generalizing e with
  | nil => cases h
  | cons y ys ih =>
    simp only [pick] at h
    by_cases ha : accepts st y = true
    · simp only [ha, if_true] at h
      cases hp : pick st ys with
      | none =>
        simp only [hp, Option.some.injEq] at h
        subst h
        refine ⟨by simp, ha, fun x hx hax => ?_⟩
        obtain rfl | hx := List.mem_cons.1 hx
        · exact le_refl _
        · simp [pick_none_iff.1 hp x hx] at hax
      | some e' =>
        obtain ⟨hm, hacc, hmin⟩ := ih hp
        simp only [hp] at h
        by_cases hr : e'.rank < y.rank
        · simp only [hr, if_true, Option.some.injEq] at h
          subst h
          refine ⟨List.mem_cons_of_mem _ hm, hacc, fun x hx hax => ?_⟩
          obtain rfl | hx := List.mem_cons.1 hx
          · omega
          · exact hmin x hx hax
        · simp only [hr, if_false, Option.some.injEq] at h
          subst h
          refine ⟨by simp, ha, fun x hx hax => ?_⟩
          obtain rfl | hx := List.mem_cons.1 hx
          · exact le_refl _
          · have := hmin x hx hax
            omega
    · simp only [ha] at h
      obtain ⟨hm, hacc, hmin⟩ := ih (by simpa using h)
      refine ⟨List.mem_cons_of_mem _ hm, hacc, fun x hx hax => ?_⟩
      obtain rfl | hx := List.mem_cons.1 hx
      · exact absurd hax ha
      · exact hmin x hx hax

/-- One event presented alone is taken if it is accepted. -/
theorem pick_single (st : Fsm) (e : Event) : pick st [e] = if accepts st e = true then some e else none := by
  simp [pick]

/-- After one event presented alone the environment goes on with what comes next. -/
theorem nextInputs_single (st : Fsm) (e : Event) (rest : List Offer) : nextInputs st ([e] :: rest) = rest := by
  simp only [nextInputs, pick_single]
  by_cases h : accepts st e = true <;> simp [h, losers, presentAgain]

/-- The event a step takes is one its state accepts. -/
theorem taken_accepted {s : State} {e : Event} (h : s.taken = some e) : accepts s.st e = true := by
  cases hi : s.inputs with
  | nil => simp [State.taken, hi] at h
  | cons o rest => simp only [State.taken, hi] at h; exact (pick_some h).2.1

theorem taken_single {s : State} {e : Event} {rest : List Offer} (h : s.inputs = [e] :: rest) :
    s.taken = if accepts s.st e = true then some e else none := by
  simp only [State.taken, h, pick_single]

theorem consume_single {s : State} {e : Event} {rest : List Offer} (h : s.inputs = [e] :: rest) :
    s.consume = { s with inputs := rest, out := [] } := by
  simp [State.consume, h, nextInputs_single]

end Sys2Proof.Machine
end

