-- ==== Sys2Proof/Laws/PerInstr.lean ====
section
/-! SUPPORT. Statements made per instruction, one lemma per constructor. -/

namespace Sys2Proof.Laws.WordOfHeader

/-- The words of an instruction are its header's bytes, in the direction its format gives, or one byte below 8
that holds its state code; and exactly one of the three is the case (R60, R66, R67, R70). -/
def Statement (i : Instr) : Prop :=
  match i.format, i.txHeader, i.rxHeader with
  | .txHdr56, some h, none => encode i = (encodeHeader h).toList ∧ decodeTx h = .ok i
  | .rxHdr56, none, some h => encode i = (encodeHeader h).toList ∧ (i.wf = true → decodeRx h = i)
  | .st3, none, none => ∃ c : BitVec 3, encode i = [c.setWidth 8] ∧ decodeSt c = i
  | _, _, _ => False

theorem fname (c : Word) (l : Half) : Statement (.fname c l) := ⟨rfl, rfl⟩
theorem dataA (c : Word) (l : Half) : Statement (.dataA c l) := ⟨rfl, rfl⟩
theorem data (c : Word) (l : Half) : Statement (.data c l) := ⟨rfl, rfl⟩
theorem dataAF (c : Word) (l : Half) : Statement (.dataAF c l) := ⟨rfl, rfl⟩
theorem dataF (c : Word) (l : Half) : Statement (.dataF c l) := ⟨rfl, rfl⟩
theorem ack (c : Word) (l : Half) : Statement (.ack c l) := ⟨rfl, fun _ => rfl⟩
theorem ackA (c : Word) (l : Half) : Statement (.ackA c l) := ⟨rfl, fun _ => rfl⟩
theorem ackF (c : Word) (l : Half) : Statement (.ackF c l) := ⟨rfl, fun _ => rfl⟩
theorem ackAF (c : Word) (l : Half) : Statement (.ackAF c l) := ⟨rfl, fun _ => rfl⟩

theorem rxOther (c : Word) (l : Half) (f : Byte) : Statement (.rxOther c l f) := by
  refine ⟨rfl, fun h => ?_⟩
  obtain ⟨h0, h2, h4, h6⟩ := of_decide_eq_true h
  simp [decodeRx, h0, h2, h4, h6]

theorem stepIdle : Statement .stepIdle := ⟨0, rfl, rfl⟩
theorem stepSendFilename : Statement .stepSendFilename := ⟨1, rfl, rfl⟩
theorem stepWaitFilenameAck : Statement .stepWaitFilenameAck := ⟨2, rfl, rfl⟩
theorem stepLoadData : Statement .stepLoadData := ⟨3, rfl, rfl⟩
theorem stepSendData : Statement .stepSendData := ⟨4, rfl, rfl⟩
theorem stepWaitDataAck : Statement .stepWaitDataAck := ⟨5, rfl, rfl⟩
theorem stepTerminated : Statement .stepTerminated := ⟨6, rfl, rfl⟩
theorem stepFatal : Statement .stepFatal := ⟨7, rfl, rfl⟩

end Sys2Proof.Laws.WordOfHeader
end

