-- ==== Sys2Proof/Laws/Step.lean ====
section
/-! SUPPORT. What each shared operation of a step can answer, said once. -/

namespace Sys2Proof.Machine

/-! ## The waiter -/

/-- R107 to R109: the two outcomes of a header. -/
theorem awaitHeader_cases (b : HeaderBytes) (s : State) :
    (b.b6 = s.expFlags ∧
      awaitHeader b s = (.accept, { s with rxh := s.rxh.write 0 b.toList, waitTimer := 0 })) ∨
    (b.b6 ≠ s.expFlags ∧
      awaitHeader b s = (.retry, { s with
        rxh := s.rxh.write 0 b.toList, waitTimer := 0, out := [.evBadAck b.b6] })) := by
  by_cases h : b.b6 = s.expFlags
  · exact .inl ⟨h, by simp [awaitHeader, decodeHeader, h]⟩
  · exact .inr ⟨h, by simp [awaitHeader, decodeHeader, h]⟩

/-- R106 with the datagram discarded. -/
theorem awaitShort_eq (s : State) : awaitShort s = (.stay, s) := rfl

/-- R106, R107: a short datagram stays, a longer one is judged by its header. -/
theorem awaitDgram_cases (bytes : List Byte) (s : State) :
    (bytes.length < 7 ∧ awaitDgram bytes s = (.stay, s)) ∨
    ∃ b rest, splitHeader bytes = some (b, rest) ∧ awaitDgram bytes s = awaitHeader b s := by
  cases h : splitHeader bytes with
  | none => exact .inl ⟨splitHeader_none_iff.1 h, by simp [awaitDgram, h, awaitShort_eq]⟩
  | some r => exact .inr ⟨r.1, r.2, rfl, by simp [awaitDgram, h]⟩

/-- R111, R112. -/
theorem awaitTick_cases (s : State) :
    (1 < s.waitTimer.toNat ∧ awaitTick s = (.stay, { s with waitTimer := s.waitTimer - 1 })) ∨
    (s.waitTimer.toNat ≤ 1 ∧ awaitTick s = (.retry, { s with waitTimer := 0 })) := by
  by_cases h : 1 < s.waitTimer.toNat
  · exact .inl ⟨h, by simp [awaitTick, h]⟩
  · exact .inr ⟨by omega, by simp [awaitTick, h]⟩

/-! ## Handing a packet over -/

/-- R125, R133: a send answers a next state exactly where the packet in TX can be read. -/
theorem sendPacket_next {s t : State} (h : sendPacket s = .next t) :
    ∃ bs, s.txData = .ok bs ∧ t = { s with
      out := [.txSend bs], waitTimer := 500#16, st := s.st.afterSend } := by
  unfold sendPacket at h
  cases hd : s.txData with
  | error f => rw [hd] at h; cases h
  | ok bs => rw [hd] at h; cases h; exact ⟨bs, rfl, rfl⟩

theorem sendPacket_ok {s : State} {bs : List Byte} (h : s.txData = .ok bs) :
    sendPacket s = .next { s with out := [.txSend bs], waitTimer := 500#16, st := s.st.afterSend } := by
  unfold sendPacket
  rw [h]
  rfl

/-! ## The state's own step -/

/-- The step of the state register, without the selection around it. -/
theorem exec_stateInstr (s : State) :
    exec (stateInstr s.st) s =
      match s.st with
      | .idle => idleStep s
      | .sendFilename => sendStep s
      | .waitFilenameAck => waitStep s
      | .loadData => loadStep s
      | .sendData => sendStep s
      | .waitDataAck => waitStep s
      | .terminated => absorbingStep s
      | .fatal => absorbingStep s := by
  cases h : s.st <;>
    simp only [stateInstr, Fsm.code, decodeSt, exec, execStepIdle, execStepSendFilename, execStepWaitFilenameAck,
      execStepLoadData, execStepSendData, execStepWaitDataAck, execStepTerminated, execStepFatal, inState, h] <;> rfl

/-- Everything the state's own step can answer (R121): reset; nothing; a packet built; a packet handed over; the
fatal entry; the deadline counted down; the two ends of a wait that retry; the two acceptances. -/
theorem stateStep_cases {s t : State} (h : exec (stateInstr s.st) s = .next t) :
    (s.taken = some .reset ∧ t = resetEngine s.consume) ∨
    (t = s.consume ∧ (s.taken = none ∨ (s.taken = some .tick ∧ s.st.isWait = false) ∨
      ∃ bytes, s.taken = some (.dgram bytes) ∧ s.st.isWait = true ∧ bytes.length < 7)) ∨
    (∃ fname, s.st = .idle ∧ s.taken = some (.start fname) ∧ fname.length ≤ 505 ∧
      t = buildFilename fname s.consume) ∨
    (∃ data eof, s.st = .loadData ∧ s.taken = some (.chunk data eof) ∧ data.length ≤ 505 ∧
      t = buildData (dataFlags s.toggle eof) data s.consume) ∨
    (∃ bs, s.st.isSend = true ∧ s.taken = some .txOk ∧ s.txData = .ok bs ∧
      t = { s.consume with out := [.txSend bs], waitTimer := 500#16, st := s.st.afterSend }) ∨
    (∃ cause, t = raiseFatal cause s.consume ∧
      (cause = .txErr ∧ s.taken = some .txErr ∧ s.st.isSend = true ∨
        cause = .rxErr ∧ s.taken = some .rxErr ∧ s.st.isWait = true ∨
        cause = .srcErr ∧ s.taken = some .srcErr ∧ s.st = .loadData)) ∨
    (s.st.isWait = true ∧ s.taken = some .tick ∧ 1 < s.waitTimer.toNat ∧
      t = { s.consume with waitTimer := s.waitTimer - 1 }) ∨
    (s.st.isWait = true ∧ s.taken = some .tick ∧ s.waitTimer.toNat ≤ 1 ∧
      t = { s.consume with
        waitTimer := 0, st := if s.st = .waitFilenameAck then .sendFilename else .sendData }) ∨
    (∃ bytes b rest, s.st.isWait = true ∧ s.taken = some (.dgram bytes) ∧ splitHeader bytes = some (b, rest) ∧
      b.b6 ≠ s.expFlags ∧
      t = { s.consume with
        rxh := s.rxh.write 0 b.toList, waitTimer := 0, out := [.evBadAck b.b6],
        st := if s.st = .waitFilenameAck then .sendFilename else .sendData }) ∨
    (∃ bytes b rest, s.st = .waitFilenameAck ∧ s.taken = some (.dgram bytes) ∧ splitHeader bytes = some (b, rest) ∧
      b.b6 = s.expFlags ∧
      t = { s.consume with rxh := s.rxh.write 0 b.toList, waitTimer := 0, st := .loadData }) ∨
    (∃ bytes b rest, s.st = .waitDataAck ∧ s.taken = some (.dgram bytes) ∧ splitHeader bytes = some (b, rest) ∧
      b.b6 = s.expFlags ∧
      t = acceptData { s.consume with rxh := s.rxh.write 0 b.toList, waitTimer := 0 }) := by
  rw [exec_stateInstr] at h
  cases ht : s.taken with
  | none =>
    refine .inr (.inl ⟨?_, .inl rfl⟩)
    cases hst : s.st <;>
      simp only [hst, idleStep, sendStep, waitStep, loadStep, absorbingStep, ht, Host.Outcome.next.injEq] at h <;>
      exact h.symm
  | some e =>
    have ha := taken_accepted ht
    cases e with
    | reset =>
      refine .inl ⟨rfl, ?_⟩
      cases hst : s.st <;>
        simp only [hst, idleStep, sendStep, waitStep, loadStep, absorbingStep, ht, Host.Outcome.next.injEq] at h <;>
        exact h.symm
    | start fname =>
      simp only [accepts, maxPayload_eq, Bool.and_eq_true, decide_eq_true_eq] at ha
      simp only [ha.1, idleStep, ht, Host.Outcome.next.injEq] at h
      exact .inr (.inr (.inl ⟨fname, ha.1, rfl, of_decide_eq_true ha.2, h.symm⟩))
    | chunk data eof =>
      simp only [accepts, maxPayload_eq, Bool.and_eq_true, decide_eq_true_eq] at ha
      simp only [ha.1, loadStep, ht, Host.Outcome.next.injEq] at h
      exact .inr (.inr (.inr (.inl ⟨data, eof, ha.1, rfl, of_decide_eq_true ha.2, h.symm⟩)))
    | srcErr =>
      simp only [accepts, decide_eq_true_eq] at ha
      simp only [ha, loadStep, ht, Host.Outcome.next.injEq] at h
      exact .inr (.inr (.inr (.inr (.inr (.inl ⟨.srcErr, h.symm, .inr (.inr ⟨rfl, rfl, ha⟩)⟩)))))
    | txOk =>
      have hs : sendPacket s.consume = .next t := by
        cases hst : s.st <;> simp only [accepts, hst, Fsm.isSend, Bool.false_eq_true] at ha <;>
          simpa only [hst, sendStep, ht] using h
      obtain ⟨bs, hd, he⟩ := sendPacket_next hs
      exact .inr (.inr (.inr (.inr (.inl ⟨bs, ha, rfl, hd, he⟩))))
    | txErr =>
      have he : raiseFatal .txErr s.consume = t := by
        cases hst : s.st <;> simp only [accepts, hst, Fsm.isSend, Bool.false_eq_true] at ha <;>
          simpa only [hst, sendStep, ht, Host.Outcome.next.injEq] using h
      exact .inr (.inr (.inr (.inr (.inr (.inl ⟨.txErr, he.symm, .inl ⟨rfl, rfl, ha⟩⟩)))))
    | rxErr =>
      have he : raiseFatal .rxErr s.consume = t := by
        cases hst : s.st <;> simp only [accepts, hst, Fsm.isWait, Bool.false_eq_true] at ha <;>
          simpa only [hst, waitStep, ht, awaitError, waitResult, filenameAckResult, dataAckResult, raiseFatal,
            Host.Outcome.next.injEq] using h
      exact .inr (.inr (.inr (.inr (.inr (.inl ⟨.rxErr, he.symm, .inr (.inl ⟨rfl, rfl, ha⟩)⟩)))))
    | tick =>
      by_cases hw : s.st.isWait = true
      · have he : waitResult s.st (awaitTick s.consume) = t := by
          cases hst : s.st <;> simp only [hst, Fsm.isWait, Bool.false_eq_true] at hw <;>
            simpa only [hst, waitStep, ht, Host.Outcome.next.injEq] using h
        obtain ⟨hc, ha'⟩ | ⟨hc, ha'⟩ := awaitTick_cases s.consume
        · refine .inr (.inr (.inr (.inr (.inr (.inr (.inl ⟨hw, rfl, hc, ?_⟩))))))
          rw [← he, ha']
          cases hst : s.st <;> rfl
        · refine .inr (.inr (.inr (.inr (.inr (.inr (.inr (.inl ⟨hw, rfl, hc, ?_⟩)))))))
          rw [← he, ha']
          cases hst : s.st <;> simp only [hst, Fsm.isWait, Bool.false_eq_true] at hw <;> rfl
      · refine .inr (.inl ⟨?_, .inr (.inl ⟨rfl, by simpa using hw⟩)⟩)
        cases hst : s.st <;> simp only [hst, Fsm.isWait, not_true_eq_false] at hw <;>
          simp only [hst, idleStep, sendStep, loadStep, absorbingStep, ht, Host.Outcome.next.injEq] at h <;>
          exact h.symm
    | dgram bytes =>
      have hw : s.st.isWait = true := ha
      have he : waitResult s.st (awaitDgram bytes s.consume) = t := by
        cases hst : s.st <;> simp only [hst, Fsm.isWait, Bool.false_eq_true] at hw <;>
          simpa only [hst, waitStep, ht, Host.Outcome.next.injEq] using h
      obtain ⟨hl, ha'⟩ | ⟨b, rest, hsp, ha'⟩ := awaitDgram_cases bytes s.consume
      · refine .inr (.inl ⟨?_, .inr (.inr ⟨bytes, rfl, hw, hl⟩)⟩)
        rw [← he, ha']
        cases hst : s.st <;> rfl
      · obtain ⟨hf, hh⟩ | ⟨hf, hh⟩ := awaitHeader_cases b s.consume
        · cases hst : s.st <;> simp only [hst, Fsm.isWait, Bool.false_eq_true] at hw
          · refine .inr (.inr (.inr (.inr (.inr (.inr (.inr (.inr (.inr (.inl
              ⟨bytes, b, rest, rfl, rfl, hsp, hf, ?_⟩)))))))))
            rw [← he, ha', hh, hst]; rfl
          · refine .inr (.inr (.inr (.inr (.inr (.inr (.inr (.inr (.inr (.inr
              ⟨bytes, b, rest, rfl, rfl, hsp, hf, ?_⟩)))))))))
            rw [← he, ha', hh, hst]; rfl
        · refine .inr (.inr (.inr (.inr (.inr (.inr (.inr (.inr (.inl
            ⟨bytes, b, rest, hw, rfl, hsp, hf, ?_⟩))))))))
          rw [← he, ha', hh]
          cases hst : s.st <;> simp only [hst, Fsm.isWait, Bool.false_eq_true] at hw <;> rfl

end Sys2Proof.Machine
end

