-- ==== Sys2Proof/Tests/Slice0.lean ====
section
/-! SUPPORT. Tests. Expected values are the vectors of 95_test_vectors.md, named by their ids, or worked examples
of the rules named. -/

namespace Sys2Proof.Tests

open Sys2Proof Sys2Proof.Machine

set_option maxRecDepth 20000

/-! ## Well-formedness: an ill-formed term for each check -/

theorem test_wf_transmit_length :
    (Instr.fname 0 506).wf = false ∧ (Instr.dataA 0 506).wf = false ∧ (Instr.data 0 506).wf = false ∧
    (Instr.dataAF 0 506).wf = false ∧ (Instr.dataF 0 506).wf = false ∧ (Instr.fname 0 505).wf = true ∧
    (Instr.dataA 0 505).wf = true ∧ (Instr.data 0 505).wf = true ∧ (Instr.dataAF 0 505).wf = true ∧
    (Instr.dataF 0 505).wf = true := by decide

theorem test_wf_other_flags :
    (Instr.rxOther 0 0 0x00).wf = false ∧ (Instr.rxOther 0 0 0x02).wf = false ∧
    (Instr.rxOther 0 0 0x04).wf = false ∧ (Instr.rxOther 0 0 0x06).wf = false ∧
    (Instr.rxOther 0 0 0x01).wf = true ∧ (Instr.rxOther 0 0 0xFF).wf = true := by decide

/-! ## Decoding: one word of every row, written out from R61, R66, R67, R70 -/

/-- Headers of A1, A10, A11, A5, A12. -/
theorem test_decode_transmit :
    decodeOnly .txHdr56 [0x12, 0xD4, 0x5B, 0x46, 0x00, 0x05, 0x01] = some (.fname 0x12D45B46 5) ∧
    decodeOnly .txHdr56 [0x2A, 0xA6, 0xDC, 0x60, 0x00, 0x05, 0x02] = some (.dataA 0x2AA6DC60 5) ∧
    decodeOnly .txHdr56 [0xFE, 0x0F, 0x32, 0x34, 0x00, 0x05, 0x00] = some (.data 0xFE0F3234 5) ∧
    decodeOnly .txHdr56 [0x0C, 0x49, 0x73, 0xB6, 0x00, 0x01, 0x06] = some (.dataAF 0x0C4973B6 1) ∧
    decodeOnly .txHdr56 [0x9F, 0xB2, 0xF2, 0x58, 0x00, 0x06, 0x04] = some (.dataF 0x9FB2F258 6) := by decide

/-- The datagrams of W1, P3 event 7, M9's form, W3, W11. -/
theorem test_decode_receive :
    decodeOnly .rxHdr56 [0x00, 0x00, 0x00, 0x00, 0x00, 0x00, 0x00] = some (.ack 0 0) ∧
    decodeOnly .rxHdr56 [0xDE, 0xAD, 0xBE, 0xEF, 0xFF, 0xFF, 0x02, 0x01, 0x02] = some (.ackA 0xDEADBEEF 0xFFFF) ∧
    decodeOnly .rxHdr56 [0x00, 0x00, 0x00, 0x00, 0x00, 0x00, 0x04] = some (.ackF 0 0) ∧
    decodeOnly .rxHdr56 [0xDE, 0xAD, 0xBE, 0xEF, 0xFF, 0xFF, 0x06, 0x01, 0x02] = some (.ackAF 0xDEADBEEF 0xFFFF) ∧
    decodeOnly .rxHdr56 [0x00, 0x00, 0x00, 0x00, 0x00, 0x00, 0x82] = some (.rxOther 0 0 0x82) ∧
    decodeOnly .rxHdr56 [0x12, 0xD4, 0x5B, 0x46, 0x00, 0x05, 0x01] = some (.rxOther 0x12D45B46 5 0x01) := by decide

theorem test_decode_steps :
    decodeOnly .st3 [0] = some .stepIdle ∧ decodeOnly .st3 [1] = some .stepSendFilename ∧
    decodeOnly .st3 [2] = some .stepWaitFilenameAck ∧ decodeOnly .st3 [3] = some .stepLoadData ∧
    decodeOnly .st3 [4] = some .stepSendData ∧ decodeOnly .st3 [5] = some .stepWaitDataAck ∧
    decodeOnly .st3 [6] = some .stepTerminated ∧ decodeOnly .st3 [7] = some .stepFatal := by decide

/-- What is no row: a flags value never sent (R68), six bytes, a byte above the 3-bit codes. -/
theorem test_decode_rejects :
    decode .txHdr56 [0, 0, 0, 0, 0, 0, 0x03] = .error (.notTransmitKind 0x03) ∧
    decode .rxHdr56 [0, 0, 0, 0, 0, 0x06] = .error .tooShort ∧
    decode .st3 [8] = .error (.notStateCode 8) ∧ decode .st3 [] = .error .tooShort := by
  refine ⟨rfl, rfl, rfl, rfl⟩

/-- R61's numbering of the 56 bits, on A1's header. -/
theorem test_table_word :
    decodeTableWord 56 0x12D45B46000501 = some (.fname 0x12D45B46 5) ∧
    decodeTableWord 56 0x00000000000082 = some (.rxOther 0 0 0x82) ∧
    decodeTableWord 8 5 = some .stepWaitDataAck ∧ decodeTableWord 8 8 = none := by decide

/-! ## Header Codec -/

/-- H3, H5, H6. -/
theorem test_encode :
    (encodeHeader ⟨0x01020304, 0x0506, 0x07⟩).toList = [0x01, 0x02, 0x03, 0x04, 0x05, 0x06, 0x07] ∧
    (encodeHeader ⟨0xFFFFFFFF, 0xFFFF, 0xFF⟩).toList = [0xFF, 0xFF, 0xFF, 0xFF, 0xFF, 0xFF, 0xFF] ∧
    (encodeHeader ⟨0x80000000, 0x0100, 0x80⟩).toList = [0x80, 0x00, 0x00, 0x00, 0x01, 0x00, 0x80] := by decide

/-- H8, H9, H10. -/
theorem test_decodeHeader :
    decodeHeader ⟨0xDE, 0xAD, 0xBE, 0xEF, 0xFF, 0xFF, 0x02⟩ = ⟨0xDEADBEEF, 65535, 0x02⟩ ∧
    decodeHeader ⟨0x0C, 0x49, 0x73, 0xB6, 0x00, 0x01, 0x06⟩ = ⟨0x0C4973B6, 1, 0x06⟩ ∧
    decodeHeader ⟨0x00, 0x00, 0x00, 0x00, 0x00, 0x00, 0x82⟩ = ⟨0, 0, 0x82⟩ := by decide

/-! ## Checksum unit -/

/-- K1: the accumulator after each shift. -/
theorem test_crc_shifts :
    (List.range 8).map (fun n => crcShifts (n + 1) 0xFFFFFFFF) =
      [0xAA7D7D7E, 0x553EBEBF, 0xFF1DDDDE, 0x7F8EEEEF, 0xEA45F5F6, 0x7522FAFB, 0xEF13FFFC, 0x7789FFFE] := by decide

/-- K2 to K9. -/
theorem test_crc_short :
    crc32 [] = 0x00000000 ∧ crc32 [0x00] = 0x88760001 ∧ crc32 [0x01] = 0x11EC0003 ∧ crc32 [0x80] = 0x5DF48280 ∧
    crc32 [0xFF] = 0xFF000000 ∧ crc32 [0x61] = 0x248CA0A3 ∧ crc32 [0, 0] = 0x11647603 ∧
    crc32 [0, 0, 0] = 0x89CC6172 := by decide

/-- K11, by R92's form and by the most-significant-bit-first form of R93. -/
theorem test_crc_digits :
    crc32 [0x31, 0x32, 0x33, 0x34, 0x35, 0x36, 0x37, 0x38, 0x39] = 0xA9CC8179 ∧
    crc32Msb [0x31, 0x32, 0x33, 0x34, 0x35, 0x36, 0x37, 0x38, 0x39] = 0xA9CC8179 := by decide

/-- K13, K14. -/
theorem test_crc_table :
    crcTable 1 = 0x999A0002 ∧ crcTable 3 = 0x01AB0505 ∧ crcTable 64 = 0xBF43C3C1 ∧ crcTable 255 = 0x77760001 ∧
    crcByteTable 0xFFFFFFFF 0x00 = 0x7789FFFE ∧ Config.crcPoly.reverse = crcPolyMsb := by decide

/-! ## ASSEMBLE and VERIFY -/

/-- A1, A3, A11, A12. -/
theorem test_assemble :
    packetBytes 0x01 [0x61, 0x2E, 0x74, 0x78, 0x74] =
      [0x12, 0xD4, 0x5B, 0x46, 0x00, 0x05, 0x01, 0x61, 0x2E, 0x74, 0x78, 0x74] ∧
    packetBytes 0x01 [] = [0x10, 0x56, 0x61, 0x70, 0x00, 0x00, 0x01] ∧
    packetBytes 0x00 [0x68, 0x65, 0x6C, 0x6C, 0x6F] =
      [0xFE, 0x0F, 0x32, 0x34, 0x00, 0x05, 0x00, 0x68, 0x65, 0x6C, 0x6C, 0x6F] ∧
    packetBytes 0x04 [0x77, 0x6F, 0x72, 0x6C, 0x64, 0x21] =
      [0x9F, 0xB2, 0xF2, 0x58, 0x00, 0x06, 0x04, 0x77, 0x6F, 0x72, 0x6C, 0x64, 0x21] := by decide

/-- A14: a longer payload. -/
theorem test_assemble_ten :
    packetChecksum 0x00 [0x03, 0x0A, 0x11, 0x18, 0x1F, 0x26, 0x2D, 0x34, 0x3B, 0x42] = 0x9BD881EC := by decide

/-- F1, F2, F5, F9, F10, F11, F12. -/
theorem test_verify :
    verify [0x12, 0xD4, 0x5B, 0x46, 0x00, 0x05, 0x01, 0x61, 0x2E, 0x74, 0x78, 0x74] = true ∧
    verify [0x12, 0xD4, 0x5B, 0x46, 0x00, 0x05, 0x01, 0x60, 0x2E, 0x74, 0x78, 0x74] = false ∧
    verify [0x2A, 0xA6, 0xDC, 0x60, 0x00, 0x04, 0x02, 0x68, 0x65, 0x6C, 0x6C, 0x6F] = false ∧
    verify [0x0C, 0x49, 0x73, 0xB6, 0x00, 0x01, 0x06, 0x41, 0x99, 0x98] = true ∧
    verify [0x0C, 0x49, 0x73, 0xB6, 0x00, 0x01, 0x06] = false ∧ verify [0, 0, 0, 0, 0, 0, 0] = false ∧
    verify [0, 0, 0, 0, 0, 6] = false := by decide

/-- The stale tail of TX after A1 then A5 (2.3's note; R24). -/
theorem test_stale_tail :
    let t := assemble 0x06 [0x41] (assemble 0x01 [0x61, 0x2E, 0x74, 0x78, 0x74] State.reset)
    t.txData.toOption = some [0x0C, 0x49, 0x73, 0xB6, 0x00, 0x01, 0x06, 0x41] ∧
    (List.range 6).map (fun k => t.tx.byte (7 + k)) =
      [some 0x41, some 0x2E, some 0x74, some 0x78, some 0x74, none] := by decide

/-! ## States of one step -/

/-- The next state of an answer. -/
def after : Result → Option State
  | .next s => some s
  | .fault _ => none
  | .refused _ => none

/-- The reset state with one offer. -/
def idleWith (o : Offer) : State := { State.reset with inputs := [o] }

/-- "a.txt" (A1). -/
def name : List Byte := [0x61, 0x2E, 0x74, 0x78, 0x74]

/-- After M1, with one offer. -/
def sendingName (o : Offer) : State := { buildFilename name State.reset with inputs := [o] }

/-- After M8 with the given toggle, with one offer. -/
def loading (toggle : BitVec 1) (o : Offer) : State :=
  { State.reset with st := .loadData, toggle := toggle, rxh := Memory.cellsAt 0 [0, 0, 0, 0, 0, 0, 0], inputs := [o] }

/-- After M13 (A10), with one offer. -/
def sendingData (o : Offer) : State :=
  { buildData 0x02 [0x68, 0x65, 0x6C, 0x6C, 0x6F] (loading 0 []) with inputs := [o] }

/-- A WAIT state with the given expected flags and timer, a packet of five payload bytes in flight, one offer. -/
def waiting (st : Fsm) (exp : Byte) (timer : Half) (o : Offer) : State :=
  { State.reset with
    st := st, expFlags := exp, hdrFlags := exp, hdrLen := 5, waitTimer := timer, inputs := [o] }

/-- `ACK(ff)` of R72. -/
def ackBytes (ff : Byte) : List Byte := [0, 0, 0, 0, 0, 0, ff]

/-- A run's end, with an absorbing state and one offer. -/
def ended (st : Fsm) (cause : BitVec 3) (o : Offer) : State :=
  { State.reset with st := st, errCause := cause, toggle := 1, inputs := [o] }

/-! ## Packet kinds -/

/-- M1: FNAME built. -/
theorem test_fname_built :
    (after (exec (.fname 0 0) (idleWith [.start name]))).map
      (fun t => (t.st, t.hdrLen, t.hdrFlags, t.hdrCsum, t.expFlags)) =
      some (.sendFilename, 5, 0x01, 0x12D45B46, 0x00) := by decide

/-- M5: FNAME handed over. -/
theorem test_fname_sent :
    (after (exec (.fname 0x12D45B46 5) (sendingName [.txOk]))).map (fun t => (t.st, t.waitTimer, t.out)) =
      some (.waitFilenameAck, 500,
        [.txSend [0x12, 0xD4, 0x5B, 0x46, 0x00, 0x05, 0x01, 0x61, 0x2E, 0x74, 0x78, 0x74]]) := by decide

/-- M13: DATA.A built. -/
theorem test_dataA_built :
    (after (exec (.dataA 0 0) (loading 0 [.chunk [0x68, 0x65, 0x6C, 0x6C, 0x6F] false]))).map
      (fun t => (t.st, t.hdrFlags, t.hdrCsum, t.expFlags)) = some (.sendData, 0x02, 0x2AA6DC60, 0x02) := by
  decide

/-- M19: DATA.A handed over. -/
theorem test_dataA_sent :
    (after (exec (.dataA 0x2AA6DC60 5) (sendingData [.txOk]))).map (fun t => (t.st, t.waitTimer, t.out)) =
      some (.waitDataAck, 500,
        [.txSend [0x2A, 0xA6, 0xDC, 0x60, 0x00, 0x05, 0x02, 0x68, 0x65, 0x6C, 0x6C, 0x6F]]) := by decide

/-- M16: DATA built, empty. -/
theorem test_data_built :
    (after (exec (.data 0 0) (loading 1 [.chunk [] false]))).map (fun t => (t.st, t.hdrFlags, t.hdrCsum, t.hdrLen)) =
      some (.sendData, 0x00, 0x89CC6172, 0) := by decide

/-- M14: DATA.AF built. -/
theorem test_dataAF_built :
    (after (exec (.dataAF 0 0) (loading 0 [.chunk [0x41] true]))).map (fun t => (t.st, t.hdrFlags, t.hdrCsum)) =
      some (.sendData, 0x06, 0x0C4973B6) := by decide

/-- M15: DATA.F built. -/
theorem test_dataF_built :
    (after (exec (.dataF 0 0) (loading 1 [.chunk [0x77, 0x6F, 0x72, 0x6C, 0x64, 0x21] true]))).map
      (fun t => (t.st, t.hdrFlags, t.hdrCsum)) = some (.sendData, 0x04, 0x9FB2F258) := by decide

/-! ## Received classes -/

/-- W1, M8. -/
theorem test_ack_filename :
    (after (exec (.ack 0 0) (waiting .waitFilenameAck 0x00 500 [.dgram (ackBytes 0x00)]))).map
      (fun t => (t.st, t.waitTimer, t.toggle, t.bytesSent, t.out)) = some (.loadData, 0, 0, 0, []) := by decide

/-- W5's mismatch, by class ACK.A. -/
theorem test_ackA_filename :
    (after (exec (.ackA 0 0) (waiting .waitFilenameAck 0x00 500 [.dgram (ackBytes 0x02)]))).map
      (fun t => (t.st, t.waitTimer, t.out)) = some (.sendFilename, 0, [.evBadAck 0x02]) := by decide

/-- M21. -/
theorem test_ackA_data :
    (after (exec (.ackA 0 0) (waiting .waitDataAck 0x02 500 [.dgram (ackBytes 0x02)]))).map
      (fun t => (t.st, t.waitTimer, t.toggle, t.bytesSent)) = some (.loadData, 0, 1, 5) := by decide

/-- W8, a subset of the expected flags. -/
theorem test_ackF_subset :
    (after (exec (.ackF 0 0) (waiting .waitDataAck 0x06 500 [.dgram (ackBytes 0x04)]))).map
      (fun t => (t.st, t.toggle, t.out)) = some (.sendData, 0, [.evBadAck 0x04]) := by decide

/-- W3: checksum, length and excess bytes are not examined; FIN ends the session. -/
theorem test_ackAF_garbage :
    (after (exec (.ackAF 0xDEADBEEF 0xFFFF)
      (waiting .waitDataAck 0x06 500 [.dgram [0xDE, 0xAD, 0xBE, 0xEF, 0xFF, 0xFF, 0x06, 0x01, 0x02]]))).map
      (fun t => (t.st, t.rxh.map (·.2))) = some (.terminated, [0xDE, 0xAD, 0xBE, 0xEF, 0xFF, 0xFF, 0x06]) := by
  decide

/-- W11: reserved bits count. -/
theorem test_rxOther_reserved :
    (after (exec (.rxOther 0 0 0x82) (waiting .waitDataAck 0x02 500 [.dgram (ackBytes 0x82)]))).map
      (fun t => (t.st, t.out)) = some (.sendData, [.evBadAck 0x82]) := by decide

/-! ## Step kinds -/

/-- M2 and M3: an empty name, and a name of 506 bytes. -/
theorem test_stepIdle :
    (after (exec .stepIdle (idleWith [.start []]))).map (fun t => (t.st, t.hdrLen, t.hdrCsum)) =
      some (.sendFilename, 0, 0x10566170) ∧
    after (exec .stepIdle (idleWith [.start (List.replicate 506 0)])) = some State.reset := by decide

/-- M7. -/
theorem test_stepSendFilename_error :
    (after (exec .stepSendFilename (sendingName [.txErr]))).map (fun t => (t.st, t.errCause, t.hdrCsum, t.out)) =
      some (.fatal, 1, 0x12D45B46, []) := by decide

/-- W15 and M12. -/
theorem test_stepWaitFilenameAck_stays :
    (after (exec .stepWaitFilenameAck (waiting .waitFilenameAck 0 500 [.tick]))).map (fun t => (t.st, t.waitTimer)) =
      some (.waitFilenameAck, 499) ∧
    (after (exec .stepWaitFilenameAck (waiting .waitFilenameAck 0 500 [.dgram [0, 0, 0]]))).map
      (fun t => (t.st, t.waitTimer)) = some (.waitFilenameAck, 500) := by decide

/-- M10's last tick and M11. -/
theorem test_stepWaitFilenameAck_ends :
    (after (exec .stepWaitFilenameAck (waiting .waitFilenameAck 0 1 [.tick]))).map
      (fun t => (t.st, t.waitTimer, t.out)) = some (.sendFilename, 0, []) ∧
    (after (exec .stepWaitFilenameAck (waiting .waitFilenameAck 0 500 [.rxErr]))).map
      (fun t => (t.st, t.errCause, t.waitTimer)) = some (.fatal, 2, 0) := by decide

/-- M17 and M18. -/
theorem test_stepLoadData :
    (after (exec .stepLoadData (loading 0 [.chunk (List.replicate 506 0) false]))).map (·.st) = some .loadData ∧
    (after (exec .stepLoadData (loading 0 [.srcErr]))).map (fun t => (t.st, t.errCause)) = some (.fatal, 3) := by
  decide

/-- M20. -/
theorem test_stepSendData_error :
    (after (exec .stepSendData (sendingData [.txErr]))).map (fun t => (t.st, t.errCause, t.toggle, t.bytesSent)) =
      some (.fatal, 1, 0, 0) := by decide

/-- M25: the counter wraps. -/
theorem test_stepWaitDataAck_wraps :
    (after (exec .stepWaitDataAck
      { waiting .waitDataAck 0x02 500 [.dgram (ackBytes 0x02)] with bytesSent := 0xFFFFFFFFFFFFFFFF })).map
      (fun t => (t.bytesSent, t.toggle, t.st)) = some (4, 1, .loadData) := by decide

/-- X6: a datagram and the last tick together. -/
theorem test_stepWaitDataAck_priority :
    (after (exec .stepWaitDataAck (waiting .waitDataAck 0x02 1 [.tick, .dgram (ackBytes 0x02)]))).map
      (fun t => (t.st, t.toggle, t.inputs)) = some (.loadData, 1, []) := by decide

/-- M26 and X4. -/
theorem test_stepTerminated :
    (after (exec .stepTerminated (ended .terminated 0 [.tick, .start name, .dgram (ackBytes 0), .txOk]))) =
      some { ended .terminated 0 [] with inputs := [] } ∧
    after (exec .stepTerminated (ended .terminated 0 [.reset])) = some State.reset := by decide

/-- M27 and X2. -/
theorem test_stepFatal :
    (after (exec .stepFatal (ended .fatal 2 [.start name]))) = some { ended .fatal 2 [] with inputs := [] } ∧
    after (exec .stepFatal (ended .fatal 2 [.reset])) = some State.reset := by decide

/-! ## The step -/

/-- A placed word runs as the first instruction after reset, in each direction (log entry 4). -/
theorem test_withFetchWord :
    fetch (State.reset.withFetchWord 56 0x12D45B46000501) = .fname 0x12D45B46 5 ∧
    ((after (step (State.reset.withFetchWord 56 0x00000000000002))).map (·.st)) = some .waitDataAck ∧
    fetch (State.reset.withFetchWord 56 0x00000000000082) = .rxOther 0 0 0x82 ∧
    ((after (step (State.reset.withFetchWord 56 0x00000000000082))).map (·.st)) = some .sendData ∧
    fetch (State.reset.withFetchWord 8 7) = .stepFatal ∧
    ((after (step (State.reset.withFetchWord 8 7))).map (·.st)) = some .fatal := by decide

/-- From reset with nothing presented the engine waits in IDLE (R170; log entry 1). -/
theorem test_step_waits : after (step State.reset) = some State.reset := by decide

/-- X5, and R160's reset before everything. -/
theorem test_step_reset :
    after (step (idleWith [.reset])) = some State.reset ∧
    (after (step (sendingData [.txErr, .reset]))).map (·.st) = some .idle := by decide

/-! ## Witnesses: for each statement that has hypotheses, states and operands that meet them together -/

/-- What an answer that passes a check says. -/
theorem exists_next {r : Result} (P : State → Prop) [DecidablePred P]
    (h : (after r).any (fun t => decide (P t)) = true) : ∃ t, r = .next t ∧ P t := by
  cases r with
  | next t => exact ⟨t, rfl, by simpa [after] using h⟩
  | fault f => simp [after] at h
  | refused f => simp [after] at h

/-- After M5, with the given offers to come: the filename packet is in flight. -/
def waitingName (os : List Offer) : State :=
  { buildFilename name State.reset with st := .waitFilenameAck, waitTimer := 500, inputs := os }

theorem wit_inv : Inv (waitingName [[.tick]]) where
  lenBound := by decide
  flagsReserved := by decide
  timerIffWait := by decide
  timerBound := by decide
  beforeData := by decide
  filenameFlags := by decide
  dataPhaseFlags := by decide
  packetInTx := fun _ => ⟨name, rfl, assemble_txData 0x01 name State.reset (by decide), rfl⟩
  causeIffFatal := by decide
  causeKnown := by decide
  txWf := by decide
  rxhWf := by decide

/-- The invariant does not depend on what is presented. -/
theorem inv_inputs {s : State} (h : Inv s) (os : List Offer) : Inv { s with inputs := os } :=
  ⟨h.1, h.2, h.3, h.4, h.5, h.6, h.7, h.8, h.9, h.10, h.11, h.12⟩

theorem wit_DecodeOfEncode :
    (Instr.dataF 0xFFFFFFFF 505).wf = true ∧ (Instr.rxOther 0 65535 0xFF).wf = true ∧ Instr.stepFatal.wf = true := by
  decide

theorem wit_EncodeOfDecode :
    decode .txHdr56 ([0, 0, 0, 0, 0xFF, 0xFF, 0x06] ++ [1]) = .ok (.dataAF 0 65535, [1]) ∧
    decode .rxHdr56 [0, 0, 0, 0, 0, 0, 0xFF] = .ok (.rxOther 0 0 0xFF, []) ∧ decode .st3 [7] = .ok (.stepFatal, []) :=
  ⟨rfl, rfl, rfl⟩

theorem wit_PlacedWordIsFetchedAndRuns :
    decodeTableWord 56 (505 * 256 + 2) = some (.dataA 0 505) ∧ (Instr.dataA 0 505).wf = true ∧
    decodeTableWord 56 (65535 * 256 + 0xFF) = some (.rxOther 0 65535 0xFF) ∧ (Instr.rxOther 0 65535 0xFF).wf = true ∧
    decodeTableWord 3 7 = some .stepFatal := by decide

theorem wit_AssembleLaysOutPacket : (List.replicate 505 (0 : Byte)).length ≤ 505 ∧ ([] : List Byte).length ≤ 505 := by
  simp

theorem wit_VerifyChecksLengthThenChecksum :
    (List.replicate 6 (0 : Byte)).length < 7 ∧
    ([] : List Byte).length < (decodeHeader ⟨0, 0, 0, 0, 0, 1, 6⟩).length.toNat ∧
    ([0x41] : List Byte).length = (decodeHeader ⟨0, 0, 0, 0, 0, 1, 6⟩).length.toNat ∧
    ([] : List Byte).length = (decodeHeader ⟨0, 0, 0, 0, 0, 0, 6⟩).length.toNat := by decide

/-- A5, changed in byte 3, 6 and 7. -/
theorem wit_VerifyDetectsOneChangedByte :
    (packetBytes 0x06 [0x41])[3]? ≠ some 0x00 ∧ (packetBytes 0x06 [0x41])[6]? ≠ some 0x02 ∧
    (packetBytes 0x06 [0x41])[7]? ≠ some 0x40 ∧ ([0x41] : List Byte).length ≤ 505 ∧ 7 < 7 + ([0x41] : List Byte).length := by
  decide

theorem wit_StartBuildsFilenamePacket :
    (idleWith [.start (List.replicate 505 0)]).st = .idle ∧
    (idleWith [.start (List.replicate 505 0)]).taken = some (.start (List.replicate 505 0)) := by decide

theorem wit_IdleIgnoresTheRest :
    (idleWith [.start (List.replicate 506 0)]).inputs = [.start (List.replicate 506 0)] :: [] ∧
    505 < (List.replicate 506 (0 : Byte)).length ∧ (idleWith [.tick]).inputs = [.tick] :: [] ∧
    (idleWith [.txOk]).st = .idle := by decide

theorem wit_SendStateHandsOverPacket :
    (sendingName [.txOk]).taken = some .txOk ∧ (sendingName [.txOk]).st = .sendFilename ∧
    (memRead .tx (sendingName [.txOk]).tx 0 (7 + (sendingName [.txOk]).hdrLen.toNat)).toOption.isSome = true ∧
    (sendingData [.txOk]).taken = some .txOk ∧ (sendingData [.txOk]).st = .sendData ∧
    (memRead .tx (sendingData [.txOk]).tx 0 (7 + (sendingData [.txOk]).hdrLen.toNat)).toOption.isSome = true := by
  decide

theorem wit_PacketKindsAreHandedOver :
    (Instr.dataA 0x2AA6DC60 5).txHeader = some ⟨0x2AA6DC60, 5, 0x02⟩ ∧ (sendingData [.txOk]).st = .sendData ∧
    (sendingData [.txOk]).taken = some .txOk ∧
    (memRead .tx (sendingData [.txOk]).tx 0 7).toOption = some (encodeHeader ⟨0x2AA6DC60, 5, 0x02⟩).toList ∧
    (memRead .tx (sendingData [.txOk]).tx 0 (7 + (sendingData [.txOk]).hdrLen.toNat)).toOption.isSome = true := by
  decide

theorem wit_SendStateErrorIsFatal :
    (sendingName [.txErr]).st = .sendFilename ∧ (sendingName [.txErr]).taken = some .txErr ∧
    (sendingData [.txErr]).st = .sendData ∧ (sendingData [.txErr]).taken = some .txErr ∧
    (sendingData [.tick]).inputs = [.tick] :: [] ∧ (sendingName [.rxErr]).inputs = [.rxErr] :: [] := by decide

theorem wit_FilenameAckAccepted :
    (waitingName [[.dgram (ackBytes 0)]]).st = .waitFilenameAck ∧
    (waitingName [[.dgram (ackBytes 0)]]).taken = some (.dgram (ackBytes 0)) ∧
    splitHeader (ackBytes 0) = some (⟨0, 0, 0, 0, 0, 0, 0⟩, []) ∧
    (0 : Byte) = (waitingName [[.dgram (ackBytes 0)]]).expFlags := by decide

/-- The run clause: one step of the data phase without reset. -/
theorem wit_FilenameAckAccepted_run :
    noReset 1 (loading 0 [.tick]) ∧ (∃ t, core.run 1 (loading 0 [.tick]) = .next t ∧ t.st = .loadData) ∧
    (loading 0 [.tick]).st = .loadData :=
  ⟨⟨by decide, trivial⟩, exists_next (fun t => t.st = .loadData) (by decide), rfl⟩

theorem wit_WaitRetries :
    (waiting .waitFilenameAck 0 1 [.tick]).taken = some .tick ∧
    (waiting .waitDataAck 2 1 [.dgram (ackBytes 0xFF)]).taken = some (.dgram (ackBytes 0xFF)) ∧
    splitHeader (ackBytes 0xFF) = some (⟨0, 0, 0, 0, 0, 0, 0xFF⟩, []) ∧
    (0xFF : Byte) ≠ (waiting .waitDataAck 2 1 [.dgram (ackBytes 0xFF)]).expFlags := by decide

theorem wit_WaitStaysOrDies :
    (waiting .waitDataAck 6 320 [.dgram [0, 0, 0, 0, 0, 6]]).taken = some (.dgram [0, 0, 0, 0, 0, 6]) ∧
    ([0, 0, 0, 0, 0, 6] : List Byte).length < 7 ∧
    (waiting .waitFilenameAck 0 2 [.tick]).taken = some .tick ∧
    1 < (waiting .waitFilenameAck 0 2 [.tick]).waitTimer.toNat ∧
    (waiting .waitFilenameAck 0 1 [.rxErr]).taken = some .rxErr ∧
    (waiting .waitDataAck 0 1 [.txOk]).inputs = [.txOk] :: [] := by decide

theorem wit_ChunkBuildsDataPacket :
    (loading 0 [.chunk (List.replicate 505 0) false]).taken = some (.chunk (List.replicate 505 0) false) ∧
    (loading 0 [.chunk [] true]).taken = some (.chunk [] true) ∧ (loading 0 [.chunk [] true]).toggle = 0#1 ∧
    (loading 1 [.chunk [] false]).taken = some (.chunk [] false) ∧
    (loading 1 [.chunk [] true]).taken = some (.chunk [] true) ∧ (loading 1 [.chunk [] true]).toggle = 1#1 := by decide

theorem wit_LoadStateOtherEvents :
    (loading 0 [.srcErr]).st = .loadData ∧ (loading 0 [.srcErr]).taken = some .srcErr ∧
    (loading 0 [.chunk (List.replicate 506 0) true]).inputs = [.chunk (List.replicate 506 0) true] :: [] ∧
    505 < (List.replicate 506 (0 : Byte)).length := by decide

theorem wit_DataAckAccepted :
    (waiting .waitDataAck 4 1 [.dgram (ackBytes 4)]).taken = some (.dgram (ackBytes 4)) ∧
    splitHeader (ackBytes 4) = some (⟨0, 0, 0, 0, 0, 0, 4⟩, []) ∧
    (4 : Byte) = (waiting .waitDataAck 4 1 [.dgram (ackBytes 4)]).expFlags ∧
    (waiting .waitDataAck 4 1 [.dgram (ackBytes 4)]).hdrFlags.getLsbD 2 = true := by decide

theorem wit_ReceivedClassesCompareFlags :
    (Instr.ackAF 0 0).rxHeader = some ⟨0, 0, 6⟩ ∧
    splitHeader (ackBytes 6 ++ [1]) = some (encodeHeader ⟨0, 0, 6⟩, [1]) ∧
    (waiting .waitDataAck 6 1 [.dgram (ackBytes 6 ++ [1])]).taken = some (.dgram (ackBytes 6 ++ [1])) ∧
    (waiting .waitFilenameAck 0 1 [.dgram (ackBytes 6 ++ [1])]).taken = some (.dgram (ackBytes 6 ++ [1])) := by decide

theorem wit_OtherClassIsNeverAccepted :
    Inv (waitingName [[.dgram (ackBytes 0x82)]]) ∧ (Instr.rxOther 0 0 0x82).wf = true ∧
    (waitingName [[.dgram (ackBytes 0x82)]]).rxHeader = some ⟨0, 0, 0x82⟩ :=
  ⟨inv_inputs wit_inv _, by decide, by decide⟩

theorem wit_HeaderIsCaptured :
    (waiting .waitDataAck 2 1 [.dgram (ackBytes 2 ++ [9])]).st.isWait = true ∧
    (waiting .waitDataAck 2 1 [.dgram (ackBytes 2 ++ [9])]).taken = some (.dgram (ackBytes 2 ++ [9])) ∧
    splitHeader (ackBytes 2 ++ [9]) = some (⟨0, 0, 0, 0, 0, 0, 2⟩, [9]) ∧
    ∃ t, step (waiting .waitDataAck 2 1 [.dgram (ackBytes 2 ++ [9])]) = .next t ∧ t.st = .loadData :=
  ⟨rfl, by decide, rfl, exists_next (fun t => t.st = .loadData) (by decide)⟩

theorem wit_TerminatedIsAbsorbing :
    (∃ t, step (waiting .waitDataAck 6 1 [.dgram (ackBytes 6)]) = .next t ∧ t.st = .terminated) ∧
    (ended .terminated 0 [.start name]).st = .terminated ∧ (ended .terminated 0 [.start name]).taken ≠ some .reset :=
  ⟨exists_next (fun t => t.st = .terminated) (by decide), rfl, by decide⟩

theorem wit_FatalIsAbsorbing :
    (∃ t, step (loading 0 [.srcErr]) = .next t ∧ t.st = .fatal) ∧
    (ended .fatal 3 [.tick]).st = .fatal ∧ (ended .fatal 3 [.tick]).taken ≠ some .reset :=
  ⟨exists_next (fun t => t.st = .fatal) (by decide), rfl, by decide⟩

/-- Each of the three causes, and a step that is not one. -/
theorem wit_FatalEntryIsPrecise :
    (∃ t, step (sendingName [.txErr]) = .next t ∧ t.st = .fatal) ∧
    (∃ t, step (waiting .waitDataAck 6 1 [.rxErr]) = .next t ∧ t.st = .fatal) ∧
    (∃ t, step (loading 0 [.srcErr]) = .next t ∧ t.st = .fatal) ∧
    ∃ t, step (loading 0 [.tick]) = .next t ∧ t.st = .loadData :=
  ⟨exists_next (fun t => t.st = .fatal) (by decide), exists_next (fun t => t.st = .fatal) (by decide),
    exists_next (fun t => t.st = .fatal) (by decide), exists_next (fun t => t.st = .loadData) (by decide)⟩

theorem wit_ResetFromEveryState : (ended .fatal 2 [.reset]).taken = some .reset := by decide

/-- Nothing accepted; reset first; an error before data; a datagram before a tick; a losing datagram comes again. -/
theorem wit_TakenEventHasPriority :
    (idleWith [.txOk]).taken = none ∧
    (waiting .waitDataAck 2 1 [.tick, .reset]).taken = some .reset ∧
    (waiting .waitDataAck 2 1 [.dgram [], .rxErr]).taken = some .rxErr ∧
    (waiting .waitDataAck 2 1 [.dgram [], .rxErr]).consume.inputs = [[.dgram []]] ∧
    (waiting .waitDataAck 2 1 [.tick, .dgram []]).taken = some (.dgram []) ∧
    (waiting .waitDataAck 2 1 [.txOk, .tick]).taken = some .tick := by decide

theorem wit_RefusedAndIgnoredChangeNothing :
    (idleWith [.txOk, .tick]).inputs = [[.txOk, .tick]] ∧ accepts .idle .txOk = false ∧ Fsm.idle.isWait = false := by
  decide

/-- A packet handed over, a header received, a state code. -/
theorem wit_StepRunsDecodedInstruction :
    decodeOnly (fetchBits (sendingName [.txOk])).1 (fetchBits (sendingName [.txOk])).2 = some (.fname 0x12D45B46 5) ∧
    (Instr.fname 0x12D45B46 5).wf = true ∧
    decodeOnly (fetchBits (waiting .waitDataAck 2 1 [.dgram (ackBytes 2)])).1
      (fetchBits (waiting .waitDataAck 2 1 [.dgram (ackBytes 2)])).2 = some (.ackA 0 0) ∧
    decodeOnly (fetchBits State.reset).1 (fetchBits State.reset).2 = some .stepIdle := by decide

/-- One state and instruction for each clause. -/
theorem wit_UnselectedInstructionDoesNothing :
    (Instr.stepFatal.format = .st3 ∧ Instr.stepFatal ≠ stateInstr (idleWith [.tick]).st) ∧
    ((Instr.ack 0 0).rxHeader = some ⟨0, 0, 0⟩ ∧
      (waiting .waitDataAck 2 1 [.dgram (ackBytes 2)]).rxHeader ≠ some ⟨0, 0, 0⟩) ∧
    ((Instr.data 0 0).txHeader = some ⟨0, 0, 0⟩ ∧ (sendingData [.txOk]).st.isSend = true ∧
      (sendingData [.txOk]).txHeader ≠ some ⟨0, 0, 0⟩) ∧
    ((loading 0 [.chunk [] false]).taken = some (.chunk [] false) ∧ dataFlags 0 false ≠ 0x06) ∧
    ((Instr.dataA 0 0).txHeader = some ⟨0, 0, 0x02⟩ ∧ (idleWith [.start []]).st = .idle ∧ (0x02 : Byte) ≠ 0x01) ∧
    ((Instr.fname 0 0).format = .txHdr56 ∧ (waiting .waitDataAck 2 1 []).st.isWait = true ∧
      (ended .fatal 1 []).st.isAbsorbing = true) := by decide

theorem wit_SuccessorsAreTheTable :
    (∃ t, step (waiting .waitDataAck 2 1 [.tick]) = .next t ∧ t.st = .sendData) ∧
    (waiting .waitDataAck 2 1 [.tick]).taken ≠ some .reset :=
  ⟨exists_next (fun t => t.st = .sendData) (by decide), by decide⟩

theorem wit_InvariantKeptByStep :
    Inv (waitingName [[.tick]]) ∧ ∃ t, step (waitingName [[.tick]]) = .next t ∧ t.waitTimer = 499 :=
  ⟨wit_inv, exists_next (fun t => t.waitTimer = 499) (by decide)⟩

theorem wit_PacketInTxAlwaysVerifies : Inv (waitingName [[.tick]]) ∧ (waitingName [[.tick]]).st ≠ .idle :=
  ⟨wit_inv, by decide⟩

theorem wit_OnlyTheStoredPacketIsSent :
    ∃ t, step (sendingName [.txOk]) = .next t ∧
      .txSend [0x12, 0xD4, 0x5B, 0x46, 0x00, 0x05, 0x01, 0x61, 0x2E, 0x74, 0x78, 0x74] ∈ t.out :=
  exists_next (fun t => OutEvent.txSend _ ∈ t.out) (by decide)

/-- Sent, answered wrongly, sent again. -/
theorem wit_RetransmissionsAreIdentical :
    (∀ v ∈ runStates 2 { sendingName [] with inputs := [[.txOk], [.dgram (ackBytes 2)], [.txOk]] },
      v.st.isSend = true ∨ v.st.isWait = true) ∧
    ∃ t, core.run 2 { sendingName [] with inputs := [[.txOk], [.dgram (ackBytes 2)], [.txOk]] } = .next t ∧
      (after (step t)).map (·.out) =
        some [.txSend [0x12, 0xD4, 0x5B, 0x46, 0x00, 0x05, 0x01, 0x61, 0x2E, 0x74, 0x78, 0x74]] :=
  ⟨by decide, exists_next (fun t => (after (step t)).map (·.out) = some [.txSend _]) (by decide)⟩

theorem wit_WhoWritesTheBuffers :
    (∃ t, step (waiting .waitDataAck 2 1 [.tick]) = .next t ∧ t.st = .sendData) ∧
    (waiting .waitDataAck 2 1 [.tick]).taken = some .tick :=
  ⟨exists_next (fun t => t.st = .sendData) (by decide), by decide⟩

/-- A step that accepts data, and one that does not. -/
theorem wit_ToggleAndCounterOnlyOnDataAck :
    (∃ t, step (waiting .waitDataAck 2 1 [.dgram (ackBytes 2)]) = .next t ∧ t.toggle = 1) ∧
    (waiting .waitDataAck 2 1 [.dgram (ackBytes 2)]).acceptsData = true ∧
    (∃ t, step (waiting .waitDataAck 2 1 [.tick]) = .next t ∧ t.toggle = 0) ∧
    (waiting .waitDataAck 2 1 [.tick]).acceptsData = false :=
  ⟨exists_next (fun t => t.toggle = 1) (by decide), by decide, exists_next (fun t => t.toggle = 0) (by decide),
    by decide⟩

theorem wit_RunCountsAcceptedData :
    noReset 1 (waiting .waitDataAck 2 1 [.dgram (ackBytes 2)]) ∧
    (∃ t, core.run 1 (waiting .waitDataAck 2 1 [.dgram (ackBytes 2)]) = .next t ∧ t.bytesSent = 5) ∧
    runAccepted 1 (waiting .waitDataAck 2 1 [.dgram (ackBytes 2)]) = (1, 5) :=
  ⟨⟨by decide, trivial⟩, exists_next (fun t => t.bytesSent = 5) (by decide), by decide⟩

/-- Three ticks left: the first and the last of them that only count, and the one that ends the wait. -/
theorem wit_DeadlineIsCountedOut :
    ({ waiting .waitDataAck 2 3 [] with inputs := List.replicate 3 [.tick] ++ [] } : State).st.isWait = true ∧
    ({ waiting .waitDataAck 2 3 [] with inputs := List.replicate 3 [.tick] ++ [] } : State).waitTimer.toNat = 3 ∧
    0 < 1 ∧ 1 < 3 ∧ 0 < 2 ∧ 2 < 3 := by decide

theorem wit_TimeoutLooksLikeMismatch :
    (waiting .waitFilenameAck 0 1 []).st.isWait = true ∧ (waiting .waitFilenameAck 0 1 []).waitTimer.toNat ≤ 1 ∧
    (waiting .waitFilenameAck 0 0 []).waitTimer.toNat ≤ 1 ∧
    splitHeader (ackBytes 2) = some (⟨0, 0, 0, 0, 0, 0, 2⟩, []) ∧
    (2 : Byte) ≠ (waiting .waitFilenameAck 0 1 []).expFlags := by decide

theorem wit_OnlyTheFlagsByteMatters :
    7 ≤ (ackBytes 2).length ∧ 7 ≤ ([9, 9, 9, 9, 9, 9, 2, 9] : List Byte).length ∧
    (ackBytes 2)[6]? = ([9, 9, 9, 9, 9, 9, 2, 9] : List Byte)[6]? ∧
    (∃ t, step (waiting .waitDataAck 2 1 [.dgram (ackBytes 2)]) = .next t ∧ t.st = .loadData) ∧
    ∃ t, step (waiting .waitDataAck 2 1 [.dgram [9, 9, 9, 9, 9, 9, 2, 9]]) = .next t ∧ t.st = .loadData :=
  ⟨by decide, by decide, by decide, exists_next (fun t => t.st = .loadData) (by decide),
    exists_next (fun t => t.st = .loadData) (by decide)⟩

end Sys2Proof.Tests
end

section
/-! SUPPORT. The family of statements about the state (10_state.md). -/

namespace Sys2Proof.Machine

/-- Settles O30: the status view computes from the fixed registers of `State.reset`, and R34's two buffers are empty
memories, in which no address holds a value. -/
theorem resetValues : Obligations.ResetValues := by
  unfold Obligations.ResetValues
  constructor
  · rfl
  · intro a
    exact ⟨byte_nil a, byte_nil a⟩

end Sys2Proof.Machine
end

section
/-! SUPPORT. The family of statements about the header codec (40_header_codec.md), after what one byte of a word and
a byte set below a word are as numbers, and what cutting a big-endian field into bytes and joining it again give. -/

namespace Sys2Proof

/-! ## One byte of a word, as a number (R7) -/

/-- A byte appended below a word is its new least significant base-256 digit. -/
theorem toNat_append_byte {n : Nat} (x : BitVec n) (y : Byte) : (x ++ y).toNat = x.toNat * 2 ^ 8 + y.toNat := by
  rw [BitVec.toNat_append, ← Nat.shiftLeft_add_eq_or_of_lt y.isLt, Nat.shiftLeft_eq]

/-- The eight bits from bit `k` up, as a number. -/
theorem toNat_extract_byte {n : Nat} (x : BitVec n) (k : Nat) :
    (x.extractLsb' k 8).toNat = x.toNat / 2 ^ k % 256 := by
  rw [BitVec.extractLsb'_toNat, Nat.shiftRight_eq_div_pow]

/-- The most significant byte needs no remainder: nothing stands above it. -/
theorem toNat_extract_top_byte {n : Nat} (x : BitVec (n + 8)) : (x.extractLsb' n 8).toNat = x.toNat / 2 ^ n := by
  have hlt : x.toNat / 2 ^ n < 256 := Nat.div_lt_of_lt_mul (Nat.pow_add 2 n 8 ▸ x.isLt)
  rw [toNat_extract_byte, Nat.mod_eq_of_lt hlt]

theorem toNat_extract_low_byte {n : Nat} (x : BitVec n) : (x.extractLsb' 0 8).toNat = x.toNat % 256 := by
  rw [toNat_extract_byte, Nat.pow_zero, Nat.div_one]

/-! ## Cutting a field into bytes and joining it again (R81, R82) -/

/-- The two bytes of a 16-bit field, joined in wire order, are the field. -/
theorem append_bytes_half (v : Half) : v.extractLsb' 8 8 ++ v.extractLsb' 0 8 = v :=
  BitVec.extractLsb'_append_extractLsb'

/-- The four bytes of a 32-bit field, joined in wire order, are the field: each join widens the run of bits that
ends at bit 31 by the next byte below it. -/
theorem append_bytes_word (v : Word) :
    v.extractLsb' 24 8 ++ v.extractLsb' 16 8 ++ v.extractLsb' 8 8 ++ v.extractLsb' 0 8 = v := by
  rw [BitVec.extractLsb'_append_extractLsb'_eq_extractLsb' (x := v) (rfl : 24 = 16 + 8),
    BitVec.extractLsb'_append_extractLsb'_eq_extractLsb' (x := v) (rfl : 16 = 8 + 8),
    BitVec.extractLsb'_append_extractLsb'_eq_extractLsb' (x := v) (rfl : 8 = 0 + 8)]
  exact BitVec.extractLsb'_eq_self

/-- A byte at or above bit 8 of a joined field is a byte of what stands above the last byte. -/
theorem extract_byte_append {n : Nat} (x : BitVec n) (y : Byte) (k : Nat) :
    (x ++ y).extractLsb' (k + 8) 8 = x.extractLsb' k 8 := by
  rw [BitVec.extractLsb'_append_eq_of_le (Nat.le_add_left 8 k), Nat.add_sub_cancel]

/-! ## The header codec -/

@[simp] theorem decodeHeader_encodeHeader (h : Header) : decodeHeader (encodeHeader h) = h := by
  obtain ⟨c, l, f⟩ := h
  exact congrArg₂ (Header.mk · · f) (append_bytes_word c) (append_bytes_half l)

@[simp] theorem encodeHeader_decodeHeader (b : HeaderBytes) : encodeHeader (decodeHeader b) = b := by
  obtain ⟨b0, b1, b2, b3, b4, b5, b6⟩ := b
  simp only [encodeHeader, decodeHeader, HeaderBytes.mk.injEq, and_true]
  refine ⟨?_, ?_, ?_, ?_, ?_, ?_⟩
  · show (b0 ++ b1 ++ b2 ++ b3).extractLsb' (0 + 8 + 8 + 8) 8 = b0
    rw [extract_byte_append, extract_byte_append, extract_byte_append, BitVec.extractLsb'_eq_self]
  · show (b0 ++ b1 ++ b2 ++ b3).extractLsb' (0 + 8 + 8) 8 = b1
    rw [extract_byte_append, extract_byte_append, BitVec.extractLsb'_append_eq_right]
  · show (b0 ++ b1 ++ b2 ++ b3).extractLsb' (0 + 8) 8 = b2
    rw [extract_byte_append, BitVec.extractLsb'_append_eq_right]
  · exact BitVec.extractLsb'_append_eq_right
  · exact BitVec.extractLsb'_append_eq_left
  · exact BitVec.extractLsb'_append_eq_right

/-- DECODE's checksum is the number its four bytes write in base 256, most significant first (R82). -/
theorem decodeHeader_checksum_toNat (b : HeaderBytes) : (decodeHeader b).checksum.toNat =
    b.b0.toNat * 2 ^ 24 + b.b1.toNat * 2 ^ 16 + b.b2.toNat * 2 ^ 8 + b.b3.toNat := by
  show (b.b0 ++ b.b1 ++ b.b2 ++ b.b3).toNat = _
  rw [toNat_append_byte, toNat_append_byte, toNat_append_byte]
  ring

theorem decodeHeader_length_toNat (b : HeaderBytes) :
    (decodeHeader b).length.toNat = b.b4.toNat * 2 ^ 8 + b.b5.toNat :=
  toNat_append_byte b.b4 b.b5

end Sys2Proof

namespace Sys2Proof.Machine

/-- Settles O4: every bit of a header value is copied to one place of the seven bytes and back (R83). -/
theorem headerCodecBijection : Obligations.HeaderCodecBijection := by
  unfold Obligations.HeaderCodecBijection
  exact ⟨decodeHeader_encodeHeader, encodeHeader_decodeHeader⟩

/-- Settles O5: ENCODE by the digit each byte of a field is, DECODE by the sum that joining the bytes is. -/
theorem headerFieldsAreBigEndian : Obligations.HeaderFieldsAreBigEndian := by
  unfold Obligations.HeaderFieldsAreBigEndian
  constructor
  · intro h
    exact ⟨toNat_extract_top_byte h.checksum, toNat_extract_byte h.checksum 16, toNat_extract_byte h.checksum 8,
      toNat_extract_low_byte h.checksum, toNat_extract_top_byte h.length, toNat_extract_low_byte h.length, rfl⟩
  · intro b
    exact ⟨decodeHeader_checksum_toNat b, decodeHeader_length_toNat b, rfl⟩

end Sys2Proof.Machine
end

section
/-! SUPPORT. The family of statements about the checksum unit and the packet assembler (41_packet_assembler.md), after
what the shifts of the two checksum forms do to an exclusive or, to clear low bits and to a reflected accumulator. -/

namespace Sys2Proof.Machine

/-! ## The table form (R93): the shifts are linear, and clear low bits never bring the polynomial in -/

/-- One shift is linear over exclusive or: where both accumulators are odd the polynomial comes in twice and cancels. -/
theorem crcShift_xor (x y : Word) : crcShift (x ^^^ y) = crcShift x ^^^ crcShift y := by
  have hcancel : (x >>> 1 ^^^ Config.crcPoly) ^^^ (y >>> 1 ^^^ Config.crcPoly) = x >>> 1 ^^^ y >>> 1 := by
    rw [BitVec.xor_assoc, BitVec.xor_comm (y >>> 1), ← BitVec.xor_assoc Config.crcPoly, BitVec.xor_self,
      BitVec.zero_xor]
  unfold crcShift
  rw [BitVec.getLsbD_xor, BitVec.ushiftRight_xor_distrib]
  cases x.getLsbD 0 <;> cases y.getLsbD 0
  · rfl
  · exact BitVec.xor_assoc ..
  · show x >>> 1 ^^^ y >>> 1 ^^^ Config.crcPoly = x >>> 1 ^^^ Config.crcPoly ^^^ y >>> 1
    ac_rfl
  · exact hcancel.symm

theorem crcShifts_xor (n : Nat) (x y : Word) : crcShifts n (x ^^^ y) = crcShifts n x ^^^ crcShifts n y := by
  induction n generalizing x y with
  | zero => rfl
  | succ n ih => simp only [crcShifts, crcShift_xor, ih]

theorem crcShift_of_even {x : Word} (h : x.getLsbD 0 = false) : crcShift x = x >>> 1 := by
  rw [crcShift, h, if_neg Bool.false_ne_true]

/-- While the bits shifted out are clear, the accumulator is only shifted. -/
theorem crcShifts_of_low_bits_clear (n : Nat) {x : Word} (h : ∀ i < n, x.getLsbD i = false) :
    crcShifts n x = x >>> n := by
  induction n generalizing x with
  | zero => simp [crcShifts]
  | succ n ih =>
    have hshift : ∀ i < n, (x >>> 1).getLsbD i = false := by
      intro i hi
      rw [BitVec.getLsbD_ushiftRight]
      exact h (1 + i) (by omega)
    rw [crcShifts, crcShift_of_even (h 0 (by omega)), ih hshift, ← BitVec.shiftRight_add, Nat.add_comm]

/-- A word is its low byte and, above it, the rest. -/
theorem low_byte_xor_rest (x : Word) : (x.setWidth 8).setWidth 32 ^^^ x >>> 8 <<< 8 = x := by
  refine BitVec.eq_of_getLsbD_eq fun i hi => ?_
  by_cases h : i < 8
  · simp [h, hi]
  · simp [h, hi, Nat.add_sub_cancel' (Nat.le_of_not_lt h)]

/-- Eight shifts take a word whose low byte is clear down to its upper bits. -/
theorem crcShifts_above_low_byte (x : Word) : crcShifts 8 (x >>> 8 <<< 8) = x >>> 8 := by
  rw [crcShifts_of_low_bits_clear 8 (by intro i hi; simp [hi])]
  refine BitVec.eq_of_getLsbD_eq fun i hi => ?_
  by_cases h : 8 + i < 32
  · simp [h]
  · simp [h, BitVec.getLsbD_of_ge x (8 + i) (by omega)]

/-- One byte by the table: its low byte goes through eight shifts, the other three only move down. -/
theorem crcByte_eq_crcByteTable (c : Word) (b : Byte) : crcByte c b = crcByteTable c b := by
  have hbyte : b.setWidth 32 >>> 8 = (0 : Word) := by
    ext i hi
    simp
  have hrest : (c ^^^ b.setWidth 32) >>> 8 = c >>> 8 := by
    rw [BitVec.ushiftRight_xor_distrib, hbyte]; exact BitVec.xor_zero
  unfold crcByte crcByteTable crcTable
  conv_lhs => rw [← low_byte_xor_rest (c ^^^ b.setWidth 32), crcShifts_xor, crcShifts_above_low_byte, hrest]

/-! ## The most-significant-bit-first form (R93): each step on the reflected accumulator reflects R91's -/

theorem reverse_xor {n : Nat} (x y : BitVec n) : (x ^^^ y).reverse = x.reverse ^^^ y.reverse := by
  ext i hi
  simp only [BitVec.getElem_xor, BitVec.getElem_reverse, BitVec.getMsbD_xor]

theorem reverse_ushiftRight {n : Nat} (x : BitVec n) (k : Nat) : (x >>> k).reverse = x.reverse <<< k := by
  ext i hi
  by_cases h : i < k
  · simp [BitVec.getElem_reverse, hi, h]
  · simp [BitVec.getElem_reverse, BitVec.getMsbD_ushiftRight, hi, h]

theorem reverse_allOnes (n : Nat) : (BitVec.allOnes n).reverse = BitVec.allOnes n := by
  ext i hi
  simp [BitVec.getElem_reverse, hi]

/-- R93's polynomial is R91's, reflected. -/
theorem reverse_crcPoly : Config.crcPoly.reverse = crcPolyMsb := by
  have hbits : ∀ i < 32, Config.crcPoly.getMsbD i = crcPolyMsb.getLsbD i := by decide
  refine BitVec.eq_of_getLsbD_eq fun i hi => ?_
  rw [BitVec.getLsbD_reverse, hbits i hi]

/-- A byte set at the bottom of a word and reflected there is the reflected byte at the top. -/
theorem reverse_setWidth_byte (b : Byte) : (b.setWidth 32).reverse = b.reverse.setWidth 32 <<< 24 := by
  refine BitVec.eq_of_getLsbD_eq fun i hi => ?_
  rw [BitVec.getLsbD_reverse]
  by_cases h : i < 24
  · simp [BitVec.getMsbD_setWidth, h]
  · simp [BitVec.getMsbD_setWidth, BitVec.getLsbD_reverse, h, hi, Nat.le_of_not_lt h]

/-- Bit 31 of the reflected accumulator is bit 0 of R91's, so both forms bring the polynomial in together. -/
theorem crcShiftMsb_reverse (c : Word) : crcShiftMsb c.reverse = (crcShift c).reverse := by
  unfold crcShiftMsb crcShift
  rw [BitVec.getLsbD_reverse, show c.getMsbD 31 = c.getLsbD 0 from rfl]
  split
  · rw [reverse_xor, reverse_ushiftRight, reverse_crcPoly]
  · rw [reverse_ushiftRight]

theorem crcShiftsMsb_reverse (n : Nat) (c : Word) : crcShiftsMsb n c.reverse = (crcShifts n c).reverse := by
  induction n generalizing c with
  | zero => rfl
  | succ n ih => simp only [crcShiftsMsb, crcShifts, crcShiftMsb_reverse, ih]

theorem crcByteMsb_reverse (c : Word) (b : Byte) : crcByteMsb c.reverse b = (crcByte c b).reverse := by
  rw [crcByteMsb, crcByte, ← reverse_setWidth_byte, ← reverse_xor, crcShiftsMsb_reverse]

theorem crc32_eq_crc32Msb (s : List Byte) : crc32 s = crc32Msb s := by
  have hfold : s.foldl crcByteMsb Config.crcInit.reverse = (crcBytes Config.crcInit s).reverse :=
    List.foldl_hom BitVec.reverse crcByteMsb_reverse
  have hinit : Config.crcInit.reverse = 0xFFFFFFFF#32 := reverse_allOnes 32
  rw [crc32Msb, ← hinit, hfold, BitVec.reverse_reverse_eq, hinit]
  rfl

/-- Settles O7: the table form by the linearity of the shifts, the most-significant-bit-first form by reflecting every
step, the sample entries by evaluation. -/
theorem checksumFormsAgree : Obligations.ChecksumFormsAgree := by
  unfold Obligations.ChecksumFormsAgree
  exact ⟨crcByte_eq_crcByteTable, crc32_eq_crc32Msb, reverse_crcPoly, by decide⟩

/-! ## ASSEMBLE (R94) -/

/-- Reading the first 7 + n bytes of TX after ASSEMBLE answers the packet. -/
theorem memRead_assemble (f : Byte) (p : List Byte) (s : State) (h : p.length ≤ 505) :
    memRead .tx (assemble f p s).tx 0 (7 + p.length) = .ok (packetBytes f p) := by
  rw [← packetBytes_length f p, assemble_tx]
  exact memRead_write _ 0 _ (by simp only [packetBytes_length, size_tx]; omega)

/-- ASSEMBLE does not touch TX above the packet it writes. -/
theorem assemble_byte_above (f : Byte) (p : List Byte) (s : State) {a : Nat} (h : 7 + p.length ≤ a) :
    (assemble f p s).tx.byte a = s.tx.byte a := by
  rw [assemble_tx, byte_write, packetBytes_length, if_neg (by omega)]

/-- Settles O8: the registers and the frame by ASSEMBLE's own record update, TX by what one write does to it. -/
theorem assembleLaysOutPacket : Obligations.AssembleLaysOutPacket := by
  unfold Obligations.AssembleLaysOutPacket
  intro f p s hp
  exact ⟨rfl, memRead_assemble f p s hp, fun a => assemble_byte_above f p s⟩

/-! ## VERIFY (R96) -/

@[simp] theorem headerOf_toList (b : HeaderBytes) (rest : List Byte) :
    headerOf (b.toList ++ rest) = some (decodeHeader b) := rfl

theorem headerOf_none_iff {q : List Byte} : headerOf q = none ↔ q.length < 7 := by
  rw [headerOf, Option.map_eq_none_iff, splitHeader_none_iff]

theorem verify_of_short {q : List Byte} (h : q.length < 7) : verify q = false := by
  rw [verify, headerOf_none_iff.2 h]

/-- The bytes the checksum is taken over: the length and flags bytes, then `n` bytes of payload. -/
theorem checksummed_toList (b : HeaderBytes) (rest : List Byte) (n : Nat) :
    ((b.toList ++ rest).drop Config.csumBytes).take (Config.headerLength + n - Config.csumBytes) =
      [b.b4, b.b5, b.b6] ++ rest.take n := by
  have hspan : Config.headerLength + n - Config.csumBytes = n + 3 := by
    simp only [headerLength_eq, Config.csumBytes]
    omega
  rw [hspan]
  rfl

/-- VERIFY of a byte string with a header: the payload the length field speaks of must be there, and the checksum is
taken over bytes 4 to the end of that payload. -/
theorem verify_toList (b : HeaderBytes) (rest : List Byte) :
    verify (b.toList ++ rest) =
      if rest.length < (decodeHeader b).length.toNat then false
      else decide ((decodeHeader b).checksum =
        crc32 ([b.b4, b.b5, b.b6] ++ rest.take (decodeHeader b).length.toNat)) := by
  simp only [verify, headerOf_toList, checksummed_toList]
  simp only [headerLength_eq, List.length_append, toList_length, Nat.add_lt_add_iff_left]

/-- Settles O9: too short by the missing header, the other two by VERIFY's one equation on a string with a header; in the
last the payload taken is exactly `p`. -/
theorem verifyChecksLengthThenChecksum : Obligations.VerifyChecksLengthThenChecksum := by
  unfold Obligations.VerifyChecksLengthThenChecksum
  refine ⟨fun q => verify_of_short, fun b p hp => ?_, fun b p extra hp => ?_⟩
  · rw [verify_toList, if_pos hp]
  · have hlen : ¬ (p ++ extra).length < (decodeHeader b).length.toNat := by
      rw [List.length_append]; omega
    rw [List.append_assoc, verify_toList, if_neg hlen, List.take_left' hp]

end Sys2Proof.Machine
end

section
/-! SUPPORT. The family of statements about the acknowledgment waiter (42_ack_waiter.md), after the one equation a step
has in a WAIT state for each event, and what each outcome of the waiter does there. -/

namespace Sys2Proof.Machine

theorem isWait_iff {st : Fsm} : st.isWait = true ↔ st = .waitFilenameAck ∨ st = .waitDataAck := by
  cases st <;> simp [Fsm.isWait]

/-- In a WAIT state the ports of the other states accept nothing (R28, R121). -/
theorem wait_refuses {st : Fsm} {e : Event} (hw : st.isWait = true) (hreset : e ≠ .reset) (htick : e ≠ .tick)
    (hrx : e ≠ .rxErr) (hdgram : ∀ bytes, e ≠ .dgram bytes) : accepts st e = false := by
  cases e with
  | reset => exact absurd rfl hreset
  | tick => exact absurd rfl htick
  | rxErr => exact absurd rfl hrx
  | dgram bytes => exact absurd rfl (hdgram bytes)
  | start _ | chunk _ _ | srcErr | txOk | txErr => obtain rfl | rfl := isWait_iff.1 hw <;> rfl

/-! ## Where the outcomes lead -/

theorem waitResult_stay (st : Fsm) (s : State) : waitResult st (.stay, s) = s := by
  cases st <;> rfl

theorem waitResult_fatal (st : Fsm) (s : State) : waitResult st (.fatal, s) = raiseFatal .rxErr s := by
  cases st <;> rfl

/-- A retry leads to the SEND state that the WAIT state followed (R128, R129, R136, R137). -/
theorem waitResult_retry (st : Fsm) (s : State) :
    waitResult st (.retry, s) =
      { s with st := if st = .waitFilenameAck then .sendFilename else .sendData } := by
  cases st <;> rfl

/-- FIN is bit 2 of the flags byte, alone in the mask that tests for it. -/
theorem hasFin_eq_getLsbD (f : Byte) : hasFin f = f.getLsbD 2 := by
  have hmask : f &&& Config.fFin = if f.getLsbD 2 then BitVec.twoPow 8 2 else 0#8 := BitVec.and_twoPow f 2
  rw [hasFin, hmask]
  cases f.getLsbD 2 <;> rfl

/-- The addition of R135 is modulo 2^64. -/
theorem add_setWidth_count (n : Count) (l : Half) : n + l.setWidth 64 = BitVec.ofNat 64 (n.toNat + l.toNat) := by
  rw [BitVec.ofNat_add, BitVec.ofNat_toNat, BitVec.ofNat_toNat, BitVec.setWidth_eq]

theorem acceptData_eq (s : State) :
    acceptData s = { s with
      toggle := s.toggle ^^^ 1#1, bytesSent := BitVec.ofNat 64 (s.bytesSent.toNat + s.hdrLen.toNat),
      st := if s.hdrFlags.getLsbD 2 = true then .terminated else .loadData } := by
  rw [acceptData, hasFin_eq_getLsbD, add_setWidth_count]

/-- No outcome writes a buffer (R127 to R130, R135 to R138). -/
theorem waitResult_buffers (st : Fsm) (r : WaitOutcome × State) :
    (waitResult st r).rxh = r.2.rxh ∧ (waitResult st r).tx = r.2.tx := by
  obtain ⟨outcome, s⟩ := r
  cases outcome with
  | accept => cases st <;> exact ⟨rfl, rfl⟩
  | retry => rw [waitResult_retry]; exact ⟨rfl, rfl⟩
  | stay => rw [waitResult_stay]; exact ⟨rfl, rfl⟩
  | fatal => rw [waitResult_fatal]; exact ⟨rfl, rfl⟩

/-! ## What the waiter makes of a header (R107 to R109) -/

/-- Judging a header captures it in RXH, whatever the outcome, and leaves TX alone. -/
theorem awaitHeader_buffers (b : HeaderBytes) (s : State) :
    (awaitHeader b s).2.rxh = s.rxh.write 0 b.toList ∧ (awaitHeader b s).2.tx = s.tx := by
  obtain ⟨-, h⟩ | ⟨-, h⟩ := awaitHeader_cases b s <;> rw [h] <;> exact ⟨rfl, rfl⟩

theorem awaitHeader_mismatch {b : HeaderBytes} {s : State} (h : b.b6 ≠ s.expFlags) :
    awaitHeader b s = (.retry, { s with
      rxh := s.rxh.write 0 b.toList, waitTimer := 0, out := [.evBadAck b.b6] }) := if_neg h

theorem awaitDgram_header {bytes rest : List Byte} {b : HeaderBytes} (h : splitHeader bytes = some (b, rest))
    (s : State) : awaitDgram bytes s = awaitHeader b s := by
  rw [awaitDgram, h]

theorem awaitDgram_short {bytes : List Byte} (h : bytes.length < 7) (s : State) :
    awaitDgram bytes s = (.stay, s) := by
  rw [awaitDgram, splitHeader_none_iff.2 h, awaitShort_eq]

/-! ## An event placed alone -/

/-- An event placed alone in the next offer is taken where the state accepts it. -/
theorem taken_placed {s : State} {e : Event} (h : accepts s.st e = true) (rest : List Offer) :
    State.taken { s with inputs := [e] :: rest } = some e :=
  (taken_single rfl).trans (if_pos h)

/-! ## The step of a WAIT state, event by event -/

theorem waitStep_none {s : State} (h : s.taken = none) : waitStep s = .next s.consume := by
  rw [waitStep, h]

theorem waitStep_short {s : State} {bytes : List Byte} (h : s.taken = some (.dgram bytes)) (hl : bytes.length < 7) :
    waitStep s = .next s.consume := by
  rw [waitStep, h]
  simp only [awaitDgram_short hl, waitResult_stay]

theorem waitStep_header {s : State} {bytes rest : List Byte} {b : HeaderBytes} (h : s.taken = some (.dgram bytes))
    (hs : splitHeader bytes = some (b, rest)) :
    waitStep s = .next (waitResult s.st (awaitHeader b s.consume)) := by
  rw [waitStep, h]
  simp only [awaitDgram_header hs]

theorem waitStep_mismatch {s : State} {bytes rest : List Byte} {b : HeaderBytes}
    (h : s.taken = some (.dgram bytes)) (hs : splitHeader bytes = some (b, rest)) (hf : b.b6 ≠ s.expFlags) :
    waitStep s = .next { s.consume with
      rxh := s.rxh.write 0 b.toList, waitTimer := 0, out := [.evBadAck b.b6],
      st := if s.st = .waitFilenameAck then .sendFilename else .sendData } := by
  have hjudge := awaitHeader_mismatch (b := b) (s := s.consume) hf
  rw [waitStep_header h hs, hjudge, waitResult_retry]
  rfl

theorem waitStep_rxErr {s : State} (h : s.taken = some .rxErr) :
    waitStep s = .next (raiseFatal .rxErr s.consume) := by
  rw [waitStep, h]
  simp only [awaitError, waitResult_fatal]
  rfl

theorem waitStep_tick {s : State} (h : s.taken = some .tick) (hw : 1 < s.waitTimer.toNat) :
    waitStep s = .next { s.consume with waitTimer := s.waitTimer - 1 } := by
  have hcount : awaitTick s.consume = (.stay, { s.consume with waitTimer := s.waitTimer - 1 }) := if_pos hw
  rw [waitStep, h]
  simp only [hcount, waitResult_stay]

theorem waitStep_lastTick {s : State} (h : s.taken = some .tick) (hw : s.waitTimer.toNat ≤ 1) :
    waitStep s = .next { s.consume with
      waitTimer := 0, st := if s.st = .waitFilenameAck then .sendFilename else .sendData } := by
  have hend : awaitTick s.consume = (.retry, { s.consume with waitTimer := 0 }) := if_neg hw.not_gt
  rw [waitStep, h]
  simp only [hend, waitResult_retry]

/-! ## The instructions a WAIT state performs -/

/-- The two step kinds of the WAIT states are one step (R70). -/
theorem exec_waitKind {s : State} {i : Instr}
    (h : s.st = .waitFilenameAck ∧ i = .stepWaitFilenameAck ∨ s.st = .waitDataAck ∧ i = .stepWaitDataAck) :
    s.st.isWait = true ∧ exec i s = waitStep s := by
  obtain ⟨hst, rfl⟩ | ⟨hst, rfl⟩ := h
  · exact ⟨isWait_iff.2 (.inl hst), if_pos hst⟩
  · exact ⟨isWait_iff.2 (.inr hst), if_pos hst⟩

/-- A received class whose header is the one received judges it (R67). -/
theorem receiveHeader_dgram {s : State} {bytes rest : List Byte} {b : HeaderBytes} (hw : s.st.isWait = true)
    (ht : s.taken = some (.dgram bytes)) (hs : splitHeader bytes = some (b, rest)) :
    receiveHeader (decodeHeader b) s = .next (waitResult s.st (awaitHeader b s.consume)) := by
  rw [receiveHeader, if_pos (rxHeader_eq hw ht hs), encodeHeader_decodeHeader]

theorem exec_stateInstr_wait {s : State} (hw : s.st.isWait = true) : exec (stateInstr s.st) s = waitStep s := by
  rw [exec_stateInstr]
  obtain hst | hst := isWait_iff.1 hw <;> rw [hst]

/-- In a WAIT state the step is the state's own, also where the bits fetched are the received header: the class that
carries the header then judges it, as the state's own step would. -/
theorem step_wait {s : State} (hw : s.st.isWait = true) : step s = waitStep s := by
  obtain ⟨bs, hsend, -⟩ | ⟨bytes, b, rest, -, ht, hs, hbits⟩ | hbits := fetchBits_cases s
  · obtain hst | hst := isWait_iff.1 hw <;> rw [hst] at hsend <;> cases hsend
  · have hfetch : fetch s = decodeRx (decodeHeader b) := by rw [fetch, hbits, decode_rx]
    rw [step, hfetch, exec_rx (decodeRx_header _), receiveHeader_dgram hw ht hs, waitStep_header ht hs]
  · have hfetch : fetch s = stateInstr s.st := by rw [fetch, hbits, decode_code]
    rw [step, hfetch, exec_stateInstr_wait hw]

/-! ## The statements -/

/-- Settles O23: every received class judges its own header by the one comparison of R108 and R109; what is left is where
the two outcomes lead from each WAIT state. -/
theorem receivedClassesCompareFlags : Obligations.ReceivedClassesCompareFlags := by
  unfold Obligations.ReceivedClassesCompareFlags
  intro s i h bytes rest hi ht hs r
  have hexec (hw : s.st = .waitFilenameAck ∨ s.st = .waitDataAck) :
      exec i s = .next (waitResult s.st (awaitHeader (encodeHeader h) s.consume)) := by
    rw [exec_rx hi, ← receiveHeader_dgram (isWait_iff.2 hw) ht hs, decodeHeader_encodeHeader]
  by_cases hf : h.flags = s.expFlags
  · have hjudge : awaitHeader (encodeHeader h) s.consume = (.accept, r) := if_pos hf
    simp only [if_pos hf]
    constructor
    · intro hst
      rw [hexec (.inl hst), hjudge, hst]
      rfl
    · intro hst
      rw [hexec (.inr hst), hjudge, hst]
      exact congrArg _ (acceptData_eq r)
  · have hjudge : awaitHeader (encodeHeader h) s.consume = (.retry, { r with out := [.evBadAck h.flags] }) :=
      if_neg hf
    simp only [if_neg hf]
    constructor
    · intro hst
      rw [hexec (.inl hst), hjudge, hst]
      rfl
    · intro hst
      rw [hexec (.inr hst), hjudge, hst]
      rfl

/-- Settles O25: the waiter writes the seven bytes at address 0 of RXH, and where its outcome leads no buffer is written
any more. -/
theorem headerIsCaptured : Obligations.HeaderIsCaptured := by
  unfold Obligations.HeaderIsCaptured
  intro s t bytes rest b hw ht hs hstep
  rw [step_wait hw, waitStep_header ht hs, Host.Outcome.next.injEq] at hstep
  obtain ⟨hrxh, htx⟩ := waitResult_buffers s.st (awaitHeader b s.consume)
  obtain ⟨hcapture, hkeep⟩ := awaitHeader_buffers b s.consume
  have hwritten : t.rxh = s.rxh.write 0 b.toList := by rw [← hstep, hrxh, hcapture, consume_rxh]
  refine ⟨?_, fun a ha => ?_, ?_⟩
  · rw [hwritten]
    exact memRead_write s.rxh 0 b.toList (le_refl 7)
  · rw [hwritten, byte_write, toList_length, if_neg (by omega)]
  · rw [← hstep, htx, hkeep, consume_tx]

/-- Settles O18: both WAIT states run one step; the mismatch and the last tick are its two retries. -/
theorem waitRetries : Obligations.WaitRetries := by
  unfold Obligations.WaitRetries
  intro s i hkind
  obtain ⟨-, hexec⟩ := exec_waitKind hkind
  rw [hexec]
  refine ⟨fun bytes b rest => waitStep_mismatch, fun ht htimer => waitStep_lastTick ht ?_⟩
  rw [htimer]
  decide

/-- Settles O19: the short datagram, the tick with time left and `rx.ERR` by the step's equations; an event of another
port is accepted in no WAIT state, so the step takes nothing. -/
theorem waitStaysOrDies : Obligations.WaitStaysOrDies := by
  unfold Obligations.WaitStaysOrDies
  intro s i hkind
  obtain ⟨hw, hexec⟩ := exec_waitKind hkind
  rw [hexec]
  refine ⟨fun bytes => waitStep_short, waitStep_tick, waitStep_rxErr, ?_⟩
  intro e rest hin hreset htick hrx hdgram
  have hnone : s.taken = none := by
    rw [taken_single hin, wait_refuses hw hreset htick hrx hdgram]
    rfl
  exact waitStep_none hnone

/-- Settles O48: the two events presented alone are taken, and lead to the same SEND state by the step's equations. -/
theorem timeoutLooksLikeMismatch : Obligations.TimeoutLooksLikeMismatch := by
  unfold Obligations.TimeoutLooksLikeMismatch
  intro s rest hw htimer t
  have hstep (o : Offer) : step { s with inputs := o :: rest } = waitStep { s with inputs := o :: rest } :=
    step_wait hw
  constructor
  · rw [hstep, waitStep_lastTick (taken_placed rfl rest) htimer, consume_single rfl]
  · intro bytes b rest' hs hf
    have hdgram := taken_placed (e := .dgram bytes) hw rest
    rw [hstep, waitStep_mismatch hdgram hs hf, consume_single rfl]

end Sys2Proof.Machine
end

section
/-! SUPPORT. The family of statements about the transfer state machine (43_transfer_fsm.md), after the equations of its
states' steps that are no wait, the step as the state's own step, and how a step enters an absorbing state. -/

namespace Sys2Proof.Machine

theorem isSend_iff {st : Fsm} : st.isSend = true ↔ st = .sendFilename ∨ st = .sendData := by
  cases st <;> simp [Fsm.isSend]

theorem accepts_start_iff {st : Fsm} {fname : List Byte} :
    accepts st (.start fname) = true ↔ st = .idle ∧ fname.length ≤ 505 := by
  rw [accepts, Bool.and_eq_true, decide_eq_true_eq, decide_eq_true_eq, maxPayload_eq]

theorem accepts_chunk_iff {st : Fsm} {data : List Byte} {eof : Bool} :
    accepts st (.chunk data eof) = true ↔ st = .loadData ∧ data.length ≤ 505 := by
  rw [accepts, Bool.and_eq_true, decide_eq_true_eq, decide_eq_true_eq, maxPayload_eq]

/-- An event taken where one is presented alone is that event, and is accepted. -/
theorem eq_of_taken_single {s : State} {e x : Event} {rest : List Offer} (hin : s.inputs = [e] :: rest)
    (ht : s.taken = some x) : e = x ∧ accepts s.st x = true := by
  have hacc := taken_accepted ht
  rw [taken_single hin] at ht
  obtain ⟨-, heq⟩ := Option.ite_none_right_eq_some.1 ht
  exact ⟨Option.some.inj heq, hacc⟩

/-! ## The steps of the states that do not wait -/

theorem idleStep_other {s : State} (hreset : s.taken ≠ some .reset) (hstart : ∀ fname, s.taken ≠ some (.start fname)) :
    idleStep s = .next s.consume := by
  unfold idleStep
  split
  · contradiction
  · next fname ht => exact absurd ht (hstart fname)
  · rfl

theorem sendStep_txOk {s : State} {bs : List Byte} (ht : s.taken = some .txOk) (hd : s.txData = .ok bs) :
    sendStep s = .next { s.consume with out := [.txSend bs], waitTimer := 500#16, st := s.st.afterSend } := by
  have hread : s.consume.txData = .ok bs := hd
  rw [sendStep, ht]
  exact sendPacket_ok hread

theorem sendStep_txErr {s : State} (ht : s.taken = some .txErr) :
    sendStep s = .next (raiseFatal .txErr s.consume) := by
  rw [sendStep, ht]

theorem sendStep_other {s : State} (hreset : s.taken ≠ some .reset) (hok : s.taken ≠ some .txOk)
    (herr : s.taken ≠ some .txErr) : sendStep s = .next s.consume := by
  unfold sendStep
  split
  · contradiction
  · contradiction
  · contradiction
  · rfl

theorem loadStep_srcErr {s : State} (ht : s.taken = some .srcErr) :
    loadStep s = .next (raiseFatal .srcErr s.consume) := by
  rw [loadStep, ht]

theorem loadStep_other {s : State} (hreset : s.taken ≠ some .reset) (herr : s.taken ≠ some .srcErr)
    (hchunk : ∀ data eof, s.taken ≠ some (.chunk data eof)) : loadStep s = .next s.consume := by
  unfold loadStep
  split
  · contradiction
  · next data eof ht => exact absurd ht (hchunk data eof)
  · contradiction
  · rfl

theorem absorbingStep_other {s : State} (hreset : s.taken ≠ some .reset) : absorbingStep s = .next s.consume := by
  unfold absorbingStep
  split
  · contradiction
  · rfl

/-- The two step kinds of the SEND states are one step (R70). -/
theorem exec_sendKind {s : State} {i : Instr}
    (h : s.st = .sendFilename ∧ i = .stepSendFilename ∨ s.st = .sendData ∧ i = .stepSendData) :
    exec i s = sendStep s := by
  obtain ⟨hst, rfl⟩ | ⟨hst, rfl⟩ := h <;> exact if_pos hst

/-- The expected flags end the wait with the header captured; where that leads is the WAIT state's (R108). -/
theorem waitStep_match {s : State} {bytes rest : List Byte} {b : HeaderBytes} (h : s.taken = some (.dgram bytes))
    (hs : splitHeader bytes = some (b, rest)) (hf : b.b6 = s.expFlags) :
    waitStep s =
      .next (waitResult s.st (.accept, { s.consume with rxh := s.rxh.write 0 b.toList, waitTimer := 0 })) := by
  have hjudge : awaitHeader b s.consume =
      (.accept, { s.consume with rxh := s.rxh.write 0 b.toList, waitTimer := 0 }) := if_pos hf
  rw [waitStep_header h hs, hjudge]

/-! ## The step as the state's own -/

theorem exec_stateInstr_send {s : State} (hs : s.st.isSend = true) : exec (stateInstr s.st) s = sendStep s := by
  rw [exec_stateInstr]
  obtain hst | hst := isSend_iff.1 hs <;> rw [hst]

/-- Whatever the bits fetched stand for, the step is the state's own (R70): in a SEND state the packet kind at the
front of TX hands over the very packet that the state would. -/
theorem step_eq_stateStep (s : State) : step s = exec (stateInstr s.st) s := by
  obtain ⟨bs, hsend, ht, hm, hbits⟩ | ⟨-, -, -, hwait, -⟩ | hbits := fetchBits_cases s
  · cases hd : decode .txHdr56 bs with
    | error e => rw [step, fetch, hbits, hd]
    | ok r =>
      obtain ⟨i, rest⟩ := r
      obtain ⟨b, hsplit, htx⟩ := decode_tx_some hd
      have hfetch : fetch s = i := by rw [fetch, hbits, hd]
      have hhand : handOver (decodeHeader b) s = sendPacket s.consume := if_pos (sends_eq hsend ht hm hsplit)
      rw [step, hfetch, exec_tx (decodeTx_header htx) hsend, hhand, exec_stateInstr_send hsend, sendStep, ht]
  · rw [step_wait hwait, exec_stateInstr_wait hwait]
  · rw [step, fetch, hbits, decode_code]

/-! ## Where a step can lead -/

/-- The rows of R121 that lead on within a session: no reset, no stay, no end. -/
def Fsm.leadsOn : Fsm → List Fsm
  | .idle => [.sendFilename]
  | .sendFilename => [.waitFilenameAck]
  | .waitFilenameAck => [.loadData, .sendFilename]
  | .loadData => [.sendData]
  | .sendData => [.waitDataAck]
  | .waitDataAck => [.loadData, .sendData]
  | .terminated => []
  | .fatal => []

theorem afterSend_mem_leadsOn {st : Fsm} (hs : st.isSend = true) : st.afterSend ∈ st.leadsOn := by
  obtain rfl | rfl := isSend_iff.1 hs <;> exact List.mem_singleton.2 rfl

/-- A wait that retries goes back to its SEND state, which is a row of R121. -/
theorem retry_mem_leadsOn {st : Fsm} (hw : st.isWait = true) :
    (if st = .waitFilenameAck then .sendFilename else .sendData) ∈ st.leadsOn := by
  obtain rfl | rfl := isWait_iff.1 hw <;> decide

theorem ne_end_of_mem_leadsOn {st st' : Fsm} (h : st' ∈ st.leadsOn) : st' ≠ .terminated ∧ st' ≠ .fatal := by
  cases st <;> simp only [Fsm.leadsOn, List.mem_cons, List.not_mem_nil, or_false] at h
  case waitFilenameAck => obtain rfl | rfl := h <;> decide
  case waitDataAck => obtain rfl | rfl := h <;> decide
  all_goals subst h; decide

/-- R135: bit 2 of the packet's flags decides where its accepted acknowledgment leads. -/
theorem acceptData_st_cases (s : State) :
    (s.hdrFlags.getLsbD 2 = true ∧ (acceptData s).st = .terminated) ∨ (acceptData s).st = .loadData := by
  rw [acceptData_st, hasFin_eq_getLsbD]
  by_cases hfin : s.hdrFlags.getLsbD 2 = true
  · exact .inl ⟨hfin, if_pos hfin⟩
  · exact .inr (if_neg hfin)

/-- The state register after a step: reset, a stay, a row of R121 that leads on, and the two ends with what leads to
them (R139, R140). -/
theorem step_st_cases {s t : State} (h : step s = .next t) :
    (s.taken = some .reset ∧ t.st = .idle) ∨ t.st = s.st ∨ t.st ∈ s.st.leadsOn ∨
    (∃ cause, t = raiseFatal cause s.consume ∧ (s.st.isSend = true ∨ s.st.isWait = true ∨ s.st = .loadData)) ∨
    (t.st = .terminated ∧ s.st = .waitDataAck ∧ s.hdrFlags.getLsbD 2 = true ∧
      ∃ bytes b rest, s.taken = some (.dgram bytes) ∧ splitHeader bytes = some (b, rest) ∧ b.b6 = s.expFlags) := by
  rw [step_eq_stateStep] at h
  obtain ⟨ht, rfl⟩ | ⟨rfl, -⟩ | ⟨fname, hst, -, -, rfl⟩ | ⟨data, eof, hst, -, -, rfl⟩ | ⟨bs, hsend, -, -, rfl⟩ |
    ⟨cause, rfl, hcause⟩ | ⟨-, -, -, rfl⟩ | ⟨hwait, -, -, rfl⟩ | ⟨bytes, b, rest, hwait, -, -, -, rfl⟩ |
    ⟨bytes, b, rest, hst, -, -, -, rfl⟩ | ⟨bytes, b, rest, hst, ht, hs, hf, rfl⟩ := stateStep_cases h
  · exact .inl ⟨ht, rfl⟩
  · exact .inr (.inl rfl)
  · exact .inr (.inr (.inl (by simp [hst, Fsm.leadsOn])))
  · exact .inr (.inr (.inl (by simp [hst, Fsm.leadsOn])))
  · exact .inr (.inr (.inl (afterSend_mem_leadsOn hsend)))
  · refine .inr (.inr (.inr (.inl ⟨cause, rfl, ?_⟩)))
    exact hcause.imp (·.2.2) (Or.imp (·.2.2) (·.2.2))
  · exact .inr (.inl rfl)
  · exact .inr (.inr (.inl (retry_mem_leadsOn hwait)))
  · exact .inr (.inr (.inl (retry_mem_leadsOn hwait)))
  · exact .inr (.inr (.inl (by simp [hst, Fsm.leadsOn])))
  · obtain ⟨hfin, hterm⟩ | hload := acceptData_st_cases { s.consume with rxh := s.rxh.write 0 b.toList, waitTimer := 0 }
    · exact .inr (.inr (.inr (.inr ⟨hterm, hst, hfin, bytes, b, rest, ht, hs, hf⟩)))
    · exact .inr (.inr (.inl (by rw [hload, hst]; decide)))

/-- The filename phase and IDLE before it are over (R127). -/
def Fsm.pastFilename (st : Fsm) : Prop := st ≠ .idle ∧ st ≠ .sendFilename ∧ st ≠ .waitFilenameAck

theorem leadsOn_pastFilename {st st' : Fsm} (h : st' ∈ st.leadsOn) (hp : st.pastFilename) : st'.pastFilename := by
  obtain ⟨hidle, hsend, hwait⟩ := hp
  cases st with
  | idle => exact absurd rfl hidle
  | sendFilename => exact absurd rfl hsend
  | waitFilenameAck => exact absurd rfl hwait
  | loadData => obtain rfl := List.mem_singleton.1 h; exact ⟨nofun, nofun, nofun⟩
  | sendData => obtain rfl := List.mem_singleton.1 h; exact ⟨nofun, nofun, nofun⟩
  | waitDataAck => obtain rfl | rfl := List.mem_pair.1 h <;> exact ⟨nofun, nofun, nofun⟩
  | terminated => cases h
  | fatal => cases h

theorem step_keeps_pastFilename {s t : State} (h : step s = .next t) (hreset : s.taken ≠ some .reset)
    (hp : s.st.pastFilename) : t.st.pastFilename := by
  obtain ⟨ht, -⟩ | hstay | hon | ⟨cause, rfl, -⟩ | ⟨hterm, -⟩ := step_st_cases h
  · exact absurd ht hreset
  · rwa [hstay]
  · exact leadsOn_pastFilename hon hp
  · exact ⟨nofun, nofun, nofun⟩
  · rw [hterm]; exact ⟨nofun, nofun, nofun⟩

theorem run_keeps_pastFilename {n : Nat} {s t : State} (hnr : noReset n s) (hrun : core.run n s = .next t)
    (hp : s.st.pastFilename) : t.st.pastFilename := by
  induction n generalizing s with
  | zero => cases hrun; exact hp
  | succ n ih =>
    obtain ⟨u, hstep⟩ := run_stop n hrun
    rw [run_next n hstep] at hrun
    obtain ⟨hreset, hrest⟩ := hnr
    rw [hstep] at hrest
    exact ih hrest hrun (step_keeps_pastFilename hstep hreset hp)

/-! ## The statements -/

/-- Settles O17: the accepted outcome in WAIT_FILENAME_ACK, and an induction on the steps of the run. -/
theorem filenameAckAccepted : Obligations.FilenameAckAccepted := by
  unfold Obligations.FilenameAckAccepted
  constructor
  · intro s bytes rest b hst ht hs hf
    have hexec : exec .stepWaitFilenameAck s = waitStep s := if_pos hst
    rw [hexec, waitStep_match ht hs hf, hst]
    rfl
  · intro n s t hnr hrun hidle hsend hwait
    exact run_keeps_pastFilename hnr hrun ⟨hidle, hsend, hwait⟩

/-- Settles O26: of the ways the state register moves only the accepted acknowledgment of a packet with FIN ends in
TERMINATED. -/
theorem terminatedIsAbsorbing : Obligations.TerminatedIsAbsorbing := by
  unfold Obligations.TerminatedIsAbsorbing
  constructor
  · intro s t hstep hterm hne
    obtain ⟨-, hidle⟩ | hstay | hon | ⟨cause, rfl, -⟩ | ⟨-, hack⟩ := step_st_cases hstep
    · rw [hidle] at hterm; cases hterm
    · exact absurd (hstay.symm.trans hterm) hne
    · exact absurd hterm (ne_end_of_mem_leadsOn hon).1
    · cases hterm
    · exact hack
  · intro s hst
    have hexec : exec .stepTerminated s = absorbingStep s := if_pos hst
    refine ⟨fun hreset => hexec.trans (absorbingStep_other hreset), ?_⟩
    simp [State.closed, State.done, State.txValid, State.rxReady, State.srcReq, State.cmdReady, hst, Fsm.isAbsorbing,
      Fsm.isSend, Fsm.isWait]

/-- Settles O27: of the ways the state register moves only the fatal entry ends in FATAL. -/
theorem fatalIsAbsorbing : Obligations.FatalIsAbsorbing := by
  unfold Obligations.FatalIsAbsorbing
  constructor
  · intro s t hstep hfatal hne
    obtain ⟨-, hidle⟩ | hstay | hon | ⟨cause, ht, hfrom⟩ | ⟨hterm, -⟩ := step_st_cases hstep
    · rw [hidle] at hfatal; cases hfatal
    · exact absurd (hstay.symm.trans hfatal) hne
    · exact absurd hfatal (ne_end_of_mem_leadsOn hon).2
    · exact ⟨hfrom, cause, ht⟩
    · rw [hterm] at hfatal; cases hfatal
  · intro s hst
    have hexec : exec .stepFatal s = absorbingStep s := if_pos hst
    refine ⟨fun hreset => hexec.trans (absorbingStep_other hreset), ?_⟩
    simp [State.closed, State.fatal, State.txValid, State.rxReady, State.srcReq, State.cmdReady, hst, Fsm.isAbsorbing,
      Fsm.isSend, Fsm.isWait]

/-- Settles O13: the event taken could only be the one presented, and that is no reset and no name that fits. -/
theorem idleIgnoresTheRest : Obligations.IdleIgnoresTheRest := by
  unfold Obligations.IdleIgnoresTheRest
  intro s e rest hst hin hreset hlong
  have hexec : exec .stepIdle s = idleStep s := if_pos hst
  refine hexec.trans (idleStep_other (fun ht => hreset (eq_of_taken_single hin ht).1) fun fname ht => ?_)
  obtain ⟨rfl, hacc⟩ := eq_of_taken_single hin ht
  have hfits : fname.length ≤ 505 := (accepts_start_iff.1 hacc).2
  exact absurd (hlong fname rfl) (by omega)

/-- Settles O14: both SEND states run one step; they differ in the WAIT state that follows. -/
theorem sendStateHandsOverPacket : Obligations.SendStateHandsOverPacket := by
  unfold Obligations.SendStateHandsOverPacket
  intro s bs ht hd
  have hsend := sendStep_txOk ht hd
  constructor
  · intro hst
    rw [exec_sendKind (.inl ⟨hst, rfl⟩), hsend, hst]
    rfl
  · intro hst
    rw [exec_sendKind (.inr ⟨hst, rfl⟩), hsend, hst]
    rfl

/-- Settles O16: the event taken could only be the one presented, and that is none a SEND state acts on. -/
theorem sendStateErrorIsFatal : Obligations.SendStateErrorIsFatal := by
  unfold Obligations.SendStateErrorIsFatal
  intro s i hkind
  rw [exec_sendKind hkind]
  refine ⟨sendStep_txErr, fun e rest hin hreset hok herr => ?_⟩
  have hother (x : Event) (hx : e ≠ x) : s.taken ≠ some x := fun ht => hx (eq_of_taken_single hin ht).1
  exact sendStep_other (hother _ hreset) (hother _ hok) (hother _ herr)

/-- Settles O21: the event taken could only be the one presented, and that is no reset, no error and no chunk that
fits. -/
theorem loadStateOtherEvents : Obligations.LoadStateOtherEvents := by
  unfold Obligations.LoadStateOtherEvents
  intro s hst
  have hexec : exec .stepLoadData s = loadStep s := if_pos hst
  rw [hexec]
  refine ⟨loadStep_srcErr, fun e rest hin hreset herr hlong => ?_⟩
  have hother (x : Event) (hx : e ≠ x) : s.taken ≠ some x := fun ht => hx (eq_of_taken_single hin ht).1
  refine loadStep_other (hother _ hreset) (hother _ herr) fun data eof ht => ?_
  obtain ⟨rfl, hacc⟩ := eq_of_taken_single hin ht
  have hfits : data.length ≤ 505 := (accepts_chunk_iff.1 hacc).2
  exact absurd (hlong data eof rfl) (by omega)

/-- Settles O22: the accepted outcome in WAIT_DATA_ACK. -/
theorem dataAckAccepted : Obligations.DataAckAccepted := by
  unfold Obligations.DataAckAccepted
  intro s bytes rest b hst ht hs hf
  have hexec : exec .stepWaitDataAck s = waitStep s := if_pos hst
  rw [hexec, waitStep_match ht hs hf, hst]
  exact congrArg _ (acceptData_eq _)

end Sys2Proof.Machine
end

section
/-! SUPPORT. The family of statements about exceptions and priority (60_exceptions.md), after the error event behind each
cause of a fatal entry, and what the environment presents again after the events it presented together. -/

namespace Sys2Proof.Machine

/-! ## The fatal entry is the answer to an error event (R151, R156) -/

/-- The port event that raises a cause (R151). -/
def FatalCause.event : FatalCause → Event
  | .txErr => .txErr
  | .rxErr => .rxErr
  | .srcErr => .srcErr

theorem FatalCause.event_injective {c c' : FatalCause} (h : c.event = c'.event) : c = c' := by
  cases c <;> cases c' <;> simp [FatalCause.event] at h ⊢

/-- An error event that is taken is answered with the fatal entry of its cause: the state that accepts it is one whose
own step does so. -/
theorem step_error {s : State} {c : FatalCause} (ht : s.taken = some c.event) :
    step s = .next (raiseFatal c s.consume) := by
  have hacc := taken_accepted ht
  cases c with
  | txErr => rw [step_eq_stateStep, exec_stateInstr_send hacc, sendStep_txErr ht]
  | rxErr => rw [step_wait hacc, waitStep_rxErr ht]
  | srcErr =>
    have hst : s.st = .loadData := of_decide_eq_true hacc
    have hexec : exec (stateInstr s.st) s = loadStep s := by rw [exec_stateInstr, hst]
    rw [step_eq_stateStep, hexec, loadStep_srcErr ht]

/-- Nothing but an error event leads to FATAL: every other way a step has stays, starts over, or leads on. -/
theorem taken_error_of_step_fatal {s t : State} (h : step s = .next t) (hne : s.st ≠ .fatal) (hfatal : t.st = .fatal) :
    ∃ c : FatalCause, s.taken = some c.event ∧ t = raiseFatal c s.consume := by
  rw [step_eq_stateStep] at h
  obtain ⟨-, rfl⟩ | ⟨rfl, -⟩ | ⟨fname, -, -, -, rfl⟩ | ⟨data, eof, -, -, -, rfl⟩ | ⟨bs, hsend, -, -, rfl⟩ |
    ⟨cause, rfl, hcause⟩ | ⟨-, -, -, rfl⟩ | ⟨hwait, -, -, rfl⟩ | ⟨bytes, b, rest, hwait, -, -, -, rfl⟩ |
    ⟨bytes, b, rest, -, -, -, -, rfl⟩ | ⟨bytes, b, rest, -, -, -, -, rfl⟩ := stateStep_cases h
  · cases hfatal
  · exact absurd hfatal hne
  · cases hfatal
  · cases hfatal
  · exact absurd hfatal (ne_end_of_mem_leadsOn (afterSend_mem_leadsOn hsend)).2
  · obtain ⟨rfl, ht, -⟩ | ⟨rfl, ht, -⟩ | ⟨rfl, ht, -⟩ := hcause
    · exact ⟨.txErr, ht, rfl⟩
    · exact ⟨.rxErr, ht, rfl⟩
    · exact ⟨.srcErr, ht, rfl⟩
  · exact absurd hfatal hne
  · exact absurd hfatal (ne_end_of_mem_leadsOn (retry_mem_leadsOn hwait)).2
  · exact absurd hfatal (ne_end_of_mem_leadsOn (retry_mem_leadsOn hwait)).2
  · cases hfatal
  · obtain ⟨-, hst⟩ | hst := acceptData_st_cases { s.consume with rxh := s.rxh.write 0 b.toList, waitTimer := 0 } <;>
      cases hst.symm.trans hfatal

/-- Which states take which error event (R28, R30 to R32). -/
theorem taken_error_iff {s : State} :
    (∃ c : FatalCause, s.taken = some c.event) ↔
      s.taken = some .txErr ∧ (s.st = .sendFilename ∨ s.st = .sendData) ∨
      s.taken = some .rxErr ∧ (s.st = .waitFilenameAck ∨ s.st = .waitDataAck) ∨
      s.taken = some .srcErr ∧ s.st = .loadData := by
  constructor
  · rintro ⟨c, ht⟩
    have hacc := taken_accepted ht
    cases c with
    | txErr => exact .inl ⟨ht, isSend_iff.1 hacc⟩
    | rxErr => exact .inr (.inl ⟨ht, isWait_iff.1 hacc⟩)
    | srcErr => exact .inr (.inr ⟨ht, of_decide_eq_true hacc⟩)
  · rintro (⟨ht, -⟩ | ⟨ht, -⟩ | ⟨ht, -⟩)
    · exact ⟨.txErr, ht⟩
    · exact ⟨.rxErr, ht⟩
    · exact ⟨.srcErr, ht⟩

/-! ## What is presented again (R160) -/

theorem isPort_iff {e : Event} : e.isPort = true ↔ e ≠ .tick ∧ e ≠ .reset := by
  cases e <;> simp [Event.isPort]

theorem mem_losers_of_ne {st : Fsm} {e x : Event} {o : Offer} (hx : x ∈ o) (hne : x ≠ e) (hacc : accepts st x = true)
    (hport : x.isPort = true) : x ∈ losers st e o :=
  List.mem_filter.2 ⟨(List.mem_erase_of_ne hne).2 hx, by rw [hacc, hport]; rfl⟩

theorem isPort_of_mem_losers {st : Fsm} {e x : Event} {o : Offer} (h : x ∈ losers st e o) : x.isPort = true :=
  (Bool.and_eq_true_iff.1 (List.mem_filter.1 h).2).2

/-- Events presented again stand in the next offer. -/
theorem exists_presentAgain_of_mem {lost : Offer} {x : Event} (h : x ∈ lost) (rest : List Offer) :
    ∃ o' rest', presentAgain lost rest = o' :: rest' ∧ x ∈ o' := by
  cases lost with
  | nil => cases h
  | cons y ys =>
    cases rest with
    | nil => exact ⟨_, _, rfl, h⟩
    | cons o os => exact ⟨_, _, rfl, List.mem_append_left _ h⟩

/-- Where nothing else comes, what is presented again is all there is. -/
theorem eq_of_mem_presentAgain_nil {lost o' : Offer} (h : o' ∈ presentAgain lost []) : o' = lost := by
  cases lost with
  | nil => cases h
  | cons y ys => exact List.mem_singleton.1 h

theorem taken_eq_pick {s : State} {o : Offer} {rest : List Offer} (hin : s.inputs = o :: rest) :
    s.taken = pick s.st o := by
  rw [State.taken, hin]

theorem consume_inputs_of_taken {s : State} {o : Offer} {rest : List Offer} {e : Event} (hin : s.inputs = o :: rest)
    (ht : s.taken = some e) : s.consume.inputs = presentAgain (losers s.st e o) rest := by
  have hpick : pick s.st o = some e := (taken_eq_pick hin).symm.trans ht
  rw [consume_inputs, hin, nextInputs, hpick]

/-! ## The order of the events taken (R160) -/

theorem rank_le_reset_iff {e : Event} : e.rank ≤ Event.reset.rank ↔ e = .reset := by
  cases e <;> simp [Event.rank]

theorem tick_rank_le_iff {e : Event} : Event.tick.rank ≤ e.rank ↔ e = .tick := by
  cases e <;> simp [Event.rank]

theorem mem_errors_iff {e : Event} : e ∈ [Event.rxErr, .txErr, .srcErr] ↔ ∃ c : FatalCause, e = c.event := by
  constructor
  · intro h
    simp only [List.mem_cons, List.not_mem_nil, or_false] at h
    obtain rfl | rfl | rfl := h
    · exact ⟨.rxErr, rfl⟩
    · exact ⟨.txErr, rfl⟩
    · exact ⟨.srcErr, rfl⟩
  · rintro ⟨c, rfl⟩
    cases c <;> simp [FatalCause.event]

/-- Only reset and the errors come as early as an error. -/
theorem rank_le_error_iff {e : Event} {c : FatalCause} :
    e.rank ≤ c.event.rank ↔ e = .reset ∨ ∃ c' : FatalCause, e = c'.event := by
  have hone : c.event.rank = 1 := by cases c <;> rfl
  rw [hone, ← mem_errors_iff]
  cases e <;> simp [Event.rank]

/-- The one cause a state can raise (R151). -/
def Fsm.raises : Fsm → Option FatalCause
  | .sendFilename => some .txErr
  | .sendData => some .txErr
  | .waitFilenameAck => some .rxErr
  | .waitDataAck => some .rxErr
  | .loadData => some .srcErr
  | _ => none

theorem accepts_error_iff {st : Fsm} {c : FatalCause} : accepts st c.event = true ↔ st.raises = some c := by
  cases c <;> cases st <;> decide

/-- The errors need no order among themselves: no state accepts two of them. -/
theorem accepted_error_unique {st : Fsm} {c c' : FatalCause} (h : accepts st c.event = true)
    (h' : accepts st c'.event = true) : c = c' :=
  Option.some.inj ((accepts_error_iff.1 h).symm.trans (accepts_error_iff.1 h'))

/-! ## The statements -/

/-- Settles O28: the error events are exactly what leads to FATAL, and each is answered with the fatal entry of its
cause. -/
theorem fatalEntryIsPrecise : Obligations.FatalEntryIsPrecise := by
  unfold Obligations.FatalEntryIsPrecise
  intro s t hstep hne
  rw [← taken_error_iff]
  refine ⟨⟨fun hfatal => ?_, ?_⟩, fun hfatal => ?_⟩
  · obtain ⟨c, ht, -⟩ := taken_error_of_step_fatal hstep hne hfatal
    exact ⟨c, ht⟩
  · rintro ⟨c, ht⟩
    obtain rfl : raiseFatal c s.consume = t := Host.Outcome.next.inj ((step_error ht).symm.trans hstep)
    rfl
  · obtain ⟨c, ht, rfl⟩ := taken_error_of_step_fatal hstep hne hfatal
    have hcause (c' : FatalCause) (ht' : s.taken = some c'.event) : c.code = c'.code :=
      congrArg _ (FatalCause.event_injective (Option.some.inj (ht.symm.trans ht')))
    exact ⟨hcause .txErr, hcause .rxErr, hcause .srcErr, rfl, rfl, rfl, rfl, rfl, rfl, rfl⟩

/-- Settles O32: the event taken is the accepted one of the least rank, and what lost to it is presented again if it is
a port event. -/
theorem takenEventHasPriority : Obligations.TakenEventHasPriority := by
  unfold Obligations.TakenEventHasPriority
  intro s o rest hin
  have hpick := taken_eq_pick hin
  refine ⟨by rw [hpick, pick_none_iff], fun e ht => ?_⟩
  obtain ⟨hmem, hacc, hmin⟩ := pick_some (hpick.symm.trans ht)
  have hinputs := consume_inputs_of_taken hin ht
  refine ⟨hmem, hacc, fun hreset => ?_, fun hreset x hx hxo hxacc => ?_, fun _ htick x hxo hxacc => ?_,
    fun x hxo hxe hxacc hxtick hxreset => ?_, fun hrest o' ho' => ?_⟩
  · exact rank_le_reset_iff.1 (hmin _ hreset rfl)
  · obtain ⟨c, rfl⟩ := mem_errors_iff.1 hx
    obtain rfl | ⟨c', rfl⟩ := rank_le_error_iff.1 (hmin _ hxo hxacc)
    · exact absurd hmem hreset
    · rw [accepted_error_unique hacc hxacc]
  · subst htick
    exact tick_rank_le_iff.1 (hmin x hxo hxacc)
  · rw [hinputs]
    exact exists_presentAgain_of_mem (mem_losers_of_ne hxo hxe hxacc (isPort_iff.2 ⟨hxtick, hxreset⟩)) rest
  · rw [hinputs, hrest] at ho'
    have hport (x : Event) (hx : x ∈ o') : x ≠ .tick ∧ x ≠ .reset := by
      rw [eq_of_mem_presentAgain_nil ho'] at hx
      exact isPort_iff.1 (isPort_of_mem_losers hx)
    exact ⟨fun htick => (hport _ htick).1 rfl, fun hreset => (hport _ hreset).2 rfl⟩

end Sys2Proof.Machine
end

section
/-! SUPPORT. The family of statements about reset and hazards (70_reset_and_hazards.md), after the two answers that a
step has in every state alike: to reset, and to nothing it acts on. -/

namespace Sys2Proof.Machine

/-! ## Reset and the ignored in every state -/

/-- Reset is answered alike in every state (R170). -/
theorem step_reset {s : State} (ht : s.taken = some .reset) : step s = .next (resetEngine s.consume) := by
  rw [step_eq_stateStep, exec_stateInstr]
  cases s.st with
  | idle => simp only [idleStep, ht]
  | sendFilename | sendData => simp only [sendStep, ht]
  | waitFilenameAck | waitDataAck => simp only [waitStep, ht]
  | loadData => simp only [loadStep, ht]
  | terminated | fatal => simp only [absorbingStep, ht]

/-- A step that takes nothing, or a tick outside the WAIT states, only uses up its offer (R33, R121). -/
theorem step_ignored {s : State} (h : s.taken = none ∨ s.taken = some .tick ∧ s.st.isWait = false) :
    step s = .next s.consume := by
  have hother (e : Event) (he : e ≠ .tick) : s.taken ≠ some e := by
    obtain hnone | ⟨htick, -⟩ := h
    · simp [hnone]
    · simpa [htick] using he.symm
  have hreset := hother .reset nofun
  by_cases hwait : s.st.isWait = true
  · have hnone : s.taken = none := h.resolve_right fun htick => by simp [hwait] at htick
    rw [step_wait hwait, waitStep_none hnone]
  · rw [step_eq_stateStep, exec_stateInstr]
    cases hst : s.st with
    | waitFilenameAck | waitDataAck => rw [hst] at hwait; exact absurd rfl hwait
    | idle => exact idleStep_other hreset fun _ => hother _ nofun
    | sendFilename | sendData => exact sendStep_other hreset (hother _ nofun) (hother _ nofun)
    | loadData => exact loadStep_other hreset (hother _ nofun) fun _ _ => hother _ nofun
    | terminated | fatal => exact absorbingStep_other hreset

/-- The event taken is one that was presented and is accepted. -/
theorem exists_offered_of_taken {s : State} {e : Event} (ht : s.taken = some e) :
    ∃ o rest, s.inputs = o :: rest ∧ e ∈ o ∧ accepts s.st e = true := by
  cases hin : s.inputs with
  | nil => rw [State.taken, hin] at ht; cases ht
  | cons o rest =>
    obtain ⟨hmem, hacc, -⟩ := pick_some ((taken_eq_pick hin).symm.trans ht)
    exact ⟨o, rest, rfl, hmem, hacc⟩

/-! ## The statements -/

/-- Settles O29: the answer to reset is the same in every state. -/
theorem resetFromEveryState : Obligations.ResetFromEveryState := by
  unfold Obligations.ResetFromEveryState
  intro s ht
  exact step_reset ht

/-- Settles O33: the event taken, if there is one, was presented and accepted, so it is a tick outside the WAIT
states. -/
theorem refusedAndIgnoredChangeNothing : Obligations.RefusedAndIgnoredChangeNothing := by
  unfold Obligations.RefusedAndIgnoredChangeNothing
  intro s h
  refine step_ignored ?_
  cases ht : s.taken with
  | none => exact .inl rfl
  | some e =>
    obtain ⟨o, rest, hin, hmem, hacc⟩ := exists_offered_of_taken ht
    obtain hrefused | ⟨rfl, hwait⟩ := h o rest hin e hmem
    · rw [hacc] at hrefused; cases hrefused
    · exact .inr ⟨rfl, hwait⟩

end Sys2Proof.Machine
end

section
/-! SUPPORT. The family of statements about the encoding (30_encoding.md), after what an instruction's words are in each
of the three formats. -/

namespace Sys2Proof

/-! ## The words of an instruction -/

theorem wordOfHeader (i : Instr) : Laws.WordOfHeader.Statement i := by
  cases i with
  | fname c l => exact Laws.WordOfHeader.fname c l
  | dataA c l => exact Laws.WordOfHeader.dataA c l
  | data c l => exact Laws.WordOfHeader.data c l
  | dataAF c l => exact Laws.WordOfHeader.dataAF c l
  | dataF c l => exact Laws.WordOfHeader.dataF c l
  | ack c l => exact Laws.WordOfHeader.ack c l
  | ackA c l => exact Laws.WordOfHeader.ackA c l
  | ackF c l => exact Laws.WordOfHeader.ackF c l
  | ackAF c l => exact Laws.WordOfHeader.ackAF c l
  | rxOther c l f => exact Laws.WordOfHeader.rxOther c l f
  | stepIdle => exact Laws.WordOfHeader.stepIdle
  | stepSendFilename => exact Laws.WordOfHeader.stepSendFilename
  | stepWaitFilenameAck => exact Laws.WordOfHeader.stepWaitFilenameAck
  | stepLoadData => exact Laws.WordOfHeader.stepLoadData
  | stepSendData => exact Laws.WordOfHeader.stepSendData
  | stepWaitDataAck => exact Laws.WordOfHeader.stepWaitDataAck
  | stepTerminated => exact Laws.WordOfHeader.stepTerminated
  | stepFatal => exact Laws.WordOfHeader.stepFatal

/-- A transmit row is of format TXHDR56, and its words are its header (R66). -/
theorem format_encode_of_txHeader {i : Instr} {h : Header} (hi : i.txHeader = some h) :
    i.format = .txHdr56 ∧ encode i = (encodeHeader h).toList := by
  have hw := wordOfHeader i
  unfold Laws.WordOfHeader.Statement at hw
  rw [hi] at hw
  split at hw
  · next hf hh _ => exact ⟨hf, Option.some.inj hh ▸ hw.1⟩
  · next hh _ => cases hh
  · next hh _ => cases hh
  · exact hw.elim

/-- A receive row is of format RXHDR56, and its words are its header (R67). -/
theorem format_encode_of_rxHeader {i : Instr} {h : Header} (hi : i.rxHeader = some h) :
    i.format = .rxHdr56 ∧ encode i = (encodeHeader h).toList := by
  have hw := wordOfHeader i
  unfold Laws.WordOfHeader.Statement at hw
  rw [hi] at hw
  split at hw
  · next hh => cases hh
  · next hf _ hh => exact ⟨hf, Option.some.inj hh ▸ hw.1⟩
  · next hh => cases hh
  · exact hw.elim

/-! ## The decoder, format by format -/

theorem decode_tx_append {b : HeaderBytes} {i : Instr} (h : decodeTx (decodeHeader b) = .ok i) (rest : List Byte) :
    decode .txHdr56 (b.toList ++ rest) = .ok (i, rest) := by
  unfold decode
  simp only [splitHeader_toList, h]

theorem decode_rx_append (b : HeaderBytes) (rest : List Byte) :
    decode .rxHdr56 (b.toList ++ rest) = .ok (decodeRx (decodeHeader b), rest) := by
  unfold decode
  simp only [splitHeader_toList]

/-- The byte of a state code is read as that code (R70). -/
theorem decodeStByte_code (c : BitVec 3) : decodeStByte (c.setWidth 8) = .ok (decodeSt c) := by
  have hval : (c.setWidth 8 : Byte).toNat = c.toNat := by
    rw [BitVec.toNat_setWidth, Nat.mod_eq_of_lt (c.isLt.trans (by decide))]
  rw [decodeStByte, hval, if_pos c.isLt, BitVec.ofNat_toNat, BitVec.setWidth_eq]

theorem decode_st_append (c : BitVec 3) (rest : List Byte) :
    decode .st3 (c.setWidth 8 :: rest) = .ok (decodeSt c, rest) := by
  unfold decode
  simp only [decodeStByte_code]

theorem decode_rx_some {bs rest : List Byte} {i : Instr} (h : decode .rxHdr56 bs = .ok (i, rest)) :
    ∃ b, splitHeader bs = some (b, rest) ∧ decodeRx (decodeHeader b) = i := by
  unfold decode at h
  cases hs : splitHeader bs with
  | none => simp only [hs] at h; cases h
  | some q => simp only [hs] at h; cases h; exact ⟨_, rfl, rfl⟩

/-- A byte read as a state code holds it in bits 2:0 and nothing above (log entry 15). -/
theorem decodeStByte_some {b : Byte} {i : Instr} (h : decodeStByte b = .ok i) :
    ∃ c : BitVec 3, b = c.setWidth 8 ∧ decodeSt c = i := by
  unfold decodeStByte at h
  split at h
  · next hlt =>
    refine ⟨BitVec.ofNat 3 b.toNat, BitVec.eq_of_toNat_eq ?_, Except.ok.inj h⟩
    rw [BitVec.toNat_setWidth, BitVec.toNat_ofNat, Nat.mod_eq_of_lt (b := 2 ^ 3) hlt, Nat.mod_eq_of_lt b.isLt]
  · cases h

theorem decode_st_some {bs rest : List Byte} {i : Instr} (h : decode .st3 bs = .ok (i, rest)) :
    ∃ c : BitVec 3, bs = c.setWidth 8 :: rest ∧ decodeSt c = i := by
  cases bs with
  | nil => cases h
  | cons b tail =>
    unfold decode at h
    cases hd : decodeStByte b with
    | error e => simp only [hd] at h; cases h
    | ok j =>
      simp only [hd] at h
      cases h
      obtain ⟨c, rfl, hc⟩ := decodeStByte_some hd
      exact ⟨c, rfl, hc⟩

/-- The eight step kinds, each with its code's byte (R70). -/
theorem format_encode_decodeSt (c : BitVec 3) :
    (decodeSt c).format = .st3 ∧ encode (decodeSt c) = [c.setWidth 8] := by
  revert c; decide

end Sys2Proof

namespace Sys2Proof.Machine

/-- Settles O1: the decoder computes on the words written out. -/
theorem knownWordsDecode : Obligations.KnownWordsDecode := by
  unfold Obligations.KnownWordsDecode
  exact ⟨rfl, rfl, rfl, rfl, rfl, rfl⟩

/-- Settles O2: an instruction's words are its header or its state code, and the decoder of its format reads that back;
well-formedness keeps RX.OTHER off the flags of the other receive rows. -/
theorem decodeOfEncode : Obligations.DecodeOfEncode := by
  unfold Obligations.DecodeOfEncode
  intro i rest hwf
  have hw := wordOfHeader i
  unfold Laws.WordOfHeader.Statement at hw
  split at hw
  · next h hf _ _ =>
    obtain ⟨henc, hdec⟩ := hw
    rw [hf, henc, decode_tx_append ((decodeHeader_encodeHeader h).symm ▸ hdec)]
  · next h hf _ _ =>
    obtain ⟨henc, hdec⟩ := hw
    rw [hf, henc, decode_rx_append, decodeHeader_encodeHeader, hdec hwf]
  · next hf _ _ =>
    obtain ⟨c, henc, rfl⟩ := hw
    rw [hf, henc]
    exact decode_st_append c rest
  · exact hw.elim

/-- Settles O3: what a format's decoder accepts is the row of the header or code it read, whose words those are. -/
theorem encodeOfDecode : Obligations.EncodeOfDecode := by
  unfold Obligations.EncodeOfDecode
  intro f bs rest i hd
  cases f with
  | txHdr56 =>
    obtain ⟨b, hs, hi⟩ := decode_tx_some hd
    obtain ⟨hf, henc⟩ := format_encode_of_txHeader (decodeTx_header hi)
    exact ⟨hf, by rw [henc, encodeHeader_decodeHeader, splitHeader_some hs]⟩
  | rxHdr56 =>
    obtain ⟨b, hs, rfl⟩ := decode_rx_some hd
    obtain ⟨hf, henc⟩ := format_encode_of_rxHeader (decodeRx_header (decodeHeader b))
    exact ⟨hf, by rw [henc, encodeHeader_decodeHeader, splitHeader_some hs]⟩
  | st3 =>
    obtain ⟨c, rfl, rfl⟩ := decode_st_some hd
    obtain ⟨hf, henc⟩ := format_encode_decodeSt c
    exact ⟨hf, by rw [henc]; rfl⟩

end Sys2Proof.Machine
end

section
/-! SUPPORT. The statements about an assembled packet as the peer checks it (41_packet_assembler.md section 3), after
what makes the checksum see one changed byte: every step of the accumulator is injective. -/

namespace Sys2Proof.Machine

/-! ## The checksum sees every changed byte (R98) -/

/-- A shift leads to 0 only from 0: the polynomial has its top bit set, which a shifted word has not. -/
theorem crcShift_eq_zero {x : Word} (h : crcShift x = 0) : x = 0 := by
  cases hodd : x.getLsbD 0 with
  | true =>
    rw [crcShift, hodd, if_pos rfl] at h
    have htop : (x >>> 1).getLsbD 31 = Config.crcPoly.getLsbD 31 := by rw [BitVec.xor_eq_zero_iff.1 h]
    have hclear : (x >>> 1).getLsbD 31 = false := by
      rw [BitVec.getLsbD_ushiftRight]
      exact BitVec.getLsbD_of_ge x 32 (le_refl 32)
    rw [hclear] at htop
    exact absurd htop (by decide)
  | false =>
    rw [crcShift_of_even hodd] at h
    refine BitVec.eq_of_getLsbD_eq fun i hi => ?_
    cases i with
    | zero => rw [hodd]; rfl
    | succ i =>
      have hbit : (x >>> 1).getLsbD i = false := by rw [h]; exact BitVec.getLsbD_zero
      rw [BitVec.getLsbD_ushiftRight, Nat.add_comm] at hbit
      rw [hbit]; exact BitVec.getLsbD_zero.symm

theorem crcShift_injective : Function.Injective crcShift := by
  intro x y h
  rw [← BitVec.xor_eq_zero_iff] at h ⊢
  exact crcShift_eq_zero ((crcShift_xor x y).trans h)

theorem crcShifts_injective (n : Nat) : Function.Injective (crcShifts n) := by
  induction n with
  | zero => exact Function.injective_id
  | succ n ih => exact ih.comp crcShift_injective

/-- Different accumulators stay different through the same bytes. -/
theorem crcBytes_injective (s : List Byte) : Function.Injective fun c => crcBytes c s := by
  induction s with
  | nil => exact Function.injective_id
  | cons b s ih =>
    have hbyte : Function.Injective fun c => crcByte c b :=
      (crcShifts_injective 8).comp fun x y h => (BitVec.xor_left_inj _).1 h
    exact ih.comp hbyte

/-- Different bytes leave different accumulators. -/
theorem crcByte_injective (c : Word) : Function.Injective (crcByte c) := by
  intro a b h
  have hwide : a.setWidth 32 = b.setWidth 32 := (BitVec.xor_right_inj c).1 (crcShifts_injective 8 h)
  have hnarrow := congrArg (BitVec.setWidth 8) hwide
  rwa [BitVec.setWidth_setWidth_of_le _ (by decide), BitVec.setWidth_setWidth_of_le _ (by decide), BitVec.setWidth_eq,
    BitVec.setWidth_eq] at hnarrow

theorem crc32_set_ne {s : List Byte} {k : Nat} {v : Byte} (hk : k < s.length) (hv : s[k]? ≠ some v) :
    crc32 (s.set k v) ≠ crc32 s := by
  intro h
  have hsplit : s = s.take k ++ s[k] :: s.drop (k + 1) := by simp
  have hacc : crcBytes Config.crcInit (s.set k v) = crcBytes Config.crcInit s := (BitVec.xor_left_inj _).1 h
  rw [List.set_eq_take_append_cons_drop, if_pos hk] at hacc
  conv_rhs at hacc => rw [hsplit]
  rw [crcBytes, crcBytes, List.foldl_append, List.foldl_append] at hacc
  have hbyte : v = s[k] := crcByte_injective _ (crcBytes_injective (s.drop (k + 1)) hacc)
  exact hv (by rw [hbyte, List.getElem?_eq_getElem hk])

/-! ## VERIFY of an assembled packet (R95, R98) -/

/-- The seven bytes an assembled packet begins with. -/
def packetHeader (f : Byte) (p : List Byte) : HeaderBytes :=
  encodeHeader ⟨packetChecksum f p, BitVec.ofNat 16 p.length, f⟩

theorem packetBytes_eq_header_append (f : Byte) (p : List Byte) : packetBytes f p = (packetHeader f p).toList ++ p :=
  packetBytes_header f p

/-- VERIFY of a byte string whose payload is as long as its header says. -/
theorem verify_of_length {b : HeaderBytes} {p : List Byte} (h : p.length = (decodeHeader b).length.toNat) :
    verify (b.toList ++ p) = decide ((decodeHeader b).checksum = crc32 ([b.b4, b.b5, b.b6] ++ p)) := by
  rw [verify_toList, if_neg (by omega), ← h, List.take_length]

theorem decodeHeader_packetHeader (f : Byte) (p : List Byte) :
    decodeHeader (packetHeader f p) = ⟨packetChecksum f p, BitVec.ofNat 16 p.length, f⟩ :=
  decodeHeader_encodeHeader _

/-- A payload that fits is as long as its length field says (R62). -/
theorem toNat_payload_length {p : List Byte} (hp : p.length ≤ 505) : (BitVec.ofNat 16 p.length).toNat = p.length := by
  rw [BitVec.toNat_ofNat, Nat.mod_eq_of_lt (by omega)]

theorem packetHeader_length {p : List Byte} (f : Byte) (hp : p.length ≤ 505) :
    p.length = (decodeHeader (packetHeader f p)).length.toNat := by
  rw [decodeHeader_packetHeader]
  exact (toNat_payload_length hp).symm

theorem verify_packetBytes {f : Byte} {p : List Byte} (hp : p.length ≤ 505) : verify (packetBytes f p) = true := by
  rw [packetBytes_eq_header_append, verify_of_length (packetHeader_length f hp), decodeHeader_packetHeader]
  exact decide_eq_true (packetChecksum_eq f p)

/-- Settles O10: the checksum is taken over the bytes behind its slot. -/
theorem assembledPacketVerifies : Obligations.AssembledPacketVerifies := by
  unfold Obligations.AssembledPacketVerifies
  intro f p hp
  exact ⟨packetBytes_length f p, verify_packetBytes hp, fun _ => rfl⟩

/-- Of two headers that differ in the checksum bytes alone, at most one verifies before a payload. -/
theorem verify_other_checksum {b b' : HeaderBytes} {p : List Byte} (hp : p.length = (decodeHeader b).length.toNat)
    (h4 : b'.b4 = b.b4) (h5 : b'.b5 = b.b5) (h6 : b'.b6 = b.b6) (hne : b' ≠ b)
    (hver : verify (b.toList ++ p) = true) : verify (b'.toList ++ p) = false := by
  have hlen : (decodeHeader b').length = (decodeHeader b).length := congrArg₂ (· ++ ·) h4 h5
  rw [verify_of_length hp, decide_eq_true_eq] at hver
  rw [verify_of_length (hlen ▸ hp), decide_eq_false_iff_not, h4, h5, h6, ← hver]
  intro hsum
  have hdec : decodeHeader b' = decodeHeader b := by
    show Header.mk (decodeHeader b').checksum (decodeHeader b').length b'.b6 = decodeHeader b
    rw [hsum, hlen, h6]
    rfl
  exact hne (by rw [← encodeHeader_decodeHeader b', hdec, encodeHeader_decodeHeader])

/-- With the same checksum, one changed byte of what it is taken over does not verify. -/
theorem verify_other_body {b b' : HeaderBytes} {p p' : List Byte} {j : Nat} {v : Byte}
    (hp : p.length = (decodeHeader b).length.toNat) (hp' : p'.length = (decodeHeader b').length.toNat)
    (hsum : (decodeHeader b').checksum = (decodeHeader b).checksum)
    (hbody : [b'.b4, b'.b5, b'.b6] ++ p' = ([b.b4, b.b5, b.b6] ++ p).set j v) (hj : j < 3 + p.length)
    (hv : ([b.b4, b.b5, b.b6] ++ p)[j]? ≠ some v) (hver : verify (b.toList ++ p) = true) :
    verify (b'.toList ++ p') = false := by
  rw [verify_of_length hp, decide_eq_true_eq] at hver
  rw [verify_of_length hp', decide_eq_false_iff_not, hsum, hver, hbody]
  have hlong : j < ([b.b4, b.b5, b.b6] ++ p).length := by
    rw [List.length_append]; exact hj
  exact (crc32_set_ne hlong hv).symm

/-- Settles O11: a changed checksum no longer is the one the bytes behind it have, and a changed byte behind it has
another checksum. -/
theorem verifyDetectsOneChangedByte : Obligations.VerifyDetectsOneChangedByte := by
  unfold Obligations.VerifyDetectsOneChangedByte
  intro f p k v hp hk hplace hv
  have hver := verify_packetBytes (f := f) hp
  have hlen := packetHeader_length f hp
  rw [packetBytes_eq_header_append] at hv hver ⊢
  generalize packetHeader f p = b at hv hver hlen ⊢
  match k, hk, hplace with
  | 0, _, _ =>
    exact verify_other_checksum (b' := { b with b0 := v }) hlen rfl rfl rfl (fun h => hv (by rw [← h]; rfl)) hver
  | 1, _, _ =>
    exact verify_other_checksum (b' := { b with b1 := v }) hlen rfl rfl rfl (fun h => hv (by rw [← h]; rfl)) hver
  | 2, _, _ =>
    exact verify_other_checksum (b' := { b with b2 := v }) hlen rfl rfl rfl (fun h => hv (by rw [← h]; rfl)) hver
  | 3, _, _ =>
    exact verify_other_checksum (b' := { b with b3 := v }) hlen rfl rfl rfl (fun h => hv (by rw [← h]; rfl)) hver
  | 4, _, hplace => omega
  | 5, _, hplace => omega
  | 6, _, _ =>
    exact verify_other_body (b' := { b with b6 := v }) (j := 2) hlen hlen rfl rfl (by omega) hv hver
  | j + 7, hk, _ =>
    exact verify_other_body (b' := b) (p' := p.set j v) (j := j + 3) hlen (by rwa [List.length_set]) rfl rfl
      (by omega) hv hver

end Sys2Proof.Machine
end

section
/-! SUPPORT. The statements about what one instruction does where, and about the ports and the status view
(10_state.md sections 4, 5 and 9, 30_encoding.md sections 3 and 6, 43_transfer_fsm.md sections 1 to 3). -/

namespace Sys2Proof.Machine

/-! ## Ports and outputs -/

/-- Settles O31: event by event, the condition its port accepts it on. -/
theorem portsAcceptByState : Obligations.PortsAcceptByState := by
  unfold Obligations.PortsAcceptByState
  intro st e
  cases e with
  | reset | tick => simp [accepts]
  | start fname => simp [accepts_start_iff]
  | chunk data eof => simp [accepts_chunk_iff]
  | srcErr => simp [accepts]
  | txOk | txErr => simp [accepts, isSend_iff]
  | dgram bytes => simp [accepts, isWait_iff]
  | rxErr => simp [accepts, isWait_iff]

theorem isAbsorbing_iff {st : Fsm} : st.isAbsorbing = true ↔ st = .terminated ∨ st = .fatal := by
  cases st <;> simp [Fsm.isAbsorbing]

theorem ofCode_code (st : Fsm) : Fsm.ofCode st.code = st := by
  cases st <;> rfl

theorem busy_iff {s : State} : s.busy = true ↔ s.st ≠ .idle ∧ s.st ≠ .terminated ∧ s.st ≠ .fatal := by
  cases hst : s.st <;> simp [State.busy, hst, Fsm.isAbsorbing]

/-- Settles O50: each derived output by the states it is defined on; the registers are shown as they are. -/
theorem outputsFollowTheState : Obligations.OutputsFollowTheState := by
  unfold Obligations.OutputsFollowTheState
  intro s
  exact ⟨busy_iff, decide_eq_true_iff, decide_eq_true_iff, decide_eq_true_iff, decide_eq_true_iff, isSend_iff,
    isWait_iff, isAbsorbing_iff, ofCode_code s.st, rfl, rfl, rfl, rfl, rfl, rfl, rfl, rfl, rfl, rfl⟩

/-! ## Which instruction a step performs -/

theorem fetch_of_decode {s : State} {i : Instr} {rest : List Byte}
    (h : decode (fetchBits s).1 (fetchBits s).2 = .ok (i, rest)) : fetch s = i := by
  rw [fetch, h]

/-- Settles O34: the step performs what is fetched. -/
theorem stepRunsDecodedInstruction : Obligations.StepRunsDecodedInstruction := by
  unfold Obligations.StepRunsDecodedInstruction
  intro s i rest h _
  rw [step, fetch_of_decode h]

/-- Settles O35: the step is the state's own whatever the bits fetched stand for. -/
theorem stateSelectsStep : Obligations.StateSelectsStep := by
  unfold Obligations.StateSelectsStep
  exact step_eq_stateStep

/-- Settles O37: the rows that lead on, a stay, and the two ends with the states they are entered from. -/
theorem successorsAreTheTable : Obligations.SuccessorsAreTheTable := by
  unfold Obligations.SuccessorsAreTheTable
  intro s t hstep hreset
  obtain ⟨ht, -⟩ | hstay | hon | ⟨cause, rfl, hfrom⟩ | ⟨hterm, hst, -⟩ := step_st_cases hstep
  · exact absurd ht hreset
  · rw [hstay]
    cases s.st <;> decide
  · refine (?_ : s.st.leadsOn ⊆ _) hon
    cases s.st <;> decide
  · rw [raiseFatal_st]
    cases hst : s.st <;> simp [hst, Fsm.isSend, Fsm.isWait] at hfrom ⊢
  · rw [hterm, hst]
    decide

/-! ## Transmit packet kinds (R66) -/

/-- A transmit row is FNAME, or a data packet kind, whose meaning is that of its header. -/
theorem exec_tx_cases {i : Instr} {h : Header} (hi : i.txHeader = some h) :
    (∀ s, exec i s = execFname h.checksum h.length s) ∧ h.flags = Config.fFilename ∨
    ∀ s, exec i s = dataPacket h s := by
  cases i with
  | fname c l => cases hi; exact .inl ⟨fun _ => rfl, rfl⟩
  | dataA c l | data c l | dataAF c l | dataF c l => cases hi; exact .inr fun _ => rfl
  | _ => cases hi

theorem dataPacket_chunk {s : State} {h : Header} {data : List Byte} {eof : Bool} (hst : s.st = .loadData)
    (ht : s.taken = some (.chunk data eof)) (hf : dataFlags s.toggle eof = h.flags) :
    dataPacket h s = .next (buildData h.flags data s.consume) := by
  rw [dataPacket, hst, ht]
  exact if_pos hf

/-- Settles O12: the port has checked the length; STEP.IDLE and FNAME build the same packet. -/
theorem startBuildsFilenamePacket : Obligations.StartBuildsFilenamePacket := by
  unfold Obligations.StartBuildsFilenamePacket
  intro s fname hst ht t
  refine ⟨(accepts_start_iff.1 (taken_accepted ht)).2, ?_, fun c l => ?_⟩
  · have hexec : exec .stepIdle s = idleStep s := if_pos hst
    rw [hexec, idleStep, ht]
    rfl
  · show execFname c l s = _
    rw [execFname, hst, ht]
    rfl

/-- Settles O20: the port has checked the length; STEP.LOAD_DATA builds the packet, and so does the kind whose flags
R131 gives for the toggle and eof. -/
theorem chunkBuildsDataPacket : Obligations.ChunkBuildsDataPacket := by
  unfold Obligations.ChunkBuildsDataPacket
  intro s data eof hst ht f t
  have hf : dataFlags s.toggle eof = f := by
    simp [dataFlags, alternatingPresent, Config.altWhenToggle0, Config.fAlternating, Config.fFin, f]
  have hbuild : t = buildData f data s.consume := rfl
  have hkind (c : Word) (l : Half) (g : Byte) (hg : f = g) : dataPacket ⟨c, l, g⟩ s = .next t := by
    subst hg
    exact dataPacket_chunk hst ht hf
  refine ⟨(accepts_chunk_iff.1 (taken_accepted ht)).2, ?_, fun c l htog heof => ?_, fun c l htog heof => ?_,
    fun c l htog heof => ?_, fun c l htog heof => ?_⟩
  · have hexec : exec .stepLoadData s = loadStep s := if_pos hst
    rw [hexec, loadStep, ht, hbuild, ← hf]
  all_goals
    refine hkind c l _ ?_
    simp only [f, htog, heof]
    decide

/-- Settles O15: the header at the front of TX is the kind's, so the kind hands over the packet the state would. -/
theorem packetKindsAreHandedOver : Obligations.PacketKindsAreHandedOver := by
  unfold Obligations.PacketKindsAreHandedOver
  intro s i h bs hi hst ht hm hd
  have hsend : s.st.isSend = true := isSend_iff.2 hst
  have hsends : s.sends h = true := by
    rw [← decodeHeader_encodeHeader h]
    exact sends_eq (rest := []) hsend ht hm rfl
  have hread : s.consume.txData = .ok bs := hd
  rw [exec_tx hi hsend, handOver, if_pos hsends, sendPacket_ok hread]
  obtain hst | hst := hst <;> simp [hst, Fsm.afterSend]

/-! ## Instructions not selected (log entry 5) -/

theorem exec_stateInstr_unselected {s : State} {st : Fsm} (hne : st ≠ s.st) :
    exec (stateInstr st) s = .next s.notSelected := by
  cases st <;> exact if_neg hne.symm

theorem exists_stateInstr_of_format {i : Instr} (h : i.format = .st3) : ∃ st, i = stateInstr st := by
  cases i with
  | stepIdle => exact ⟨.idle, rfl⟩
  | stepSendFilename => exact ⟨.sendFilename, rfl⟩
  | stepWaitFilenameAck => exact ⟨.waitFilenameAck, rfl⟩
  | stepLoadData => exact ⟨.loadData, rfl⟩
  | stepSendData => exact ⟨.sendData, rfl⟩
  | stepWaitDataAck => exact ⟨.waitDataAck, rfl⟩
  | stepTerminated => exact ⟨.terminated, rfl⟩
  | stepFatal => exact ⟨.fatal, rfl⟩
  | _ => cases h

theorem exists_txHeader_of_format {i : Instr} (h : i.format = .txHdr56) : ∃ hd, i.txHeader = some hd := by
  cases i with
  | fname c l | dataA c l | data c l | dataAF c l | dataF c l => exact ⟨_, rfl⟩
  | _ => cases h

theorem sends_iff {s : State} {h : Header} :
    s.sends h = true ↔ s.st.isSend = true ∧ s.taken = some .txOk ∧ s.txHeader = some h := by
  rw [State.sends, Bool.and_eq_true, Bool.and_eq_true, decide_eq_true_eq, decide_eq_true_eq, and_assoc]
  rfl

theorem handOver_unselected {h : Header} {s : State} (hns : s.sends h ≠ true) :
    handOver h s = .next s.notSelected := if_neg hns

/-- A packet kind does nothing where its packet is neither built nor handed over. -/
theorem exec_tx_unselected {i : Instr} {h : Header} {s : State} (hi : i.txHeader = some h) (hns : s.sends h ≠ true)
    (hname : s.st = .idle → ∀ fname, s.taken = some (.start fname) → h.flags ≠ 0x01#8)
    (hdata : s.st = .loadData → ∀ data eof, s.taken = some (.chunk data eof) → dataFlags s.toggle eof ≠ h.flags) :
    exec i s = .next s.notSelected := by
  obtain ⟨hexec, hflags⟩ | hexec := exec_tx_cases hi
  · rw [hexec, execFname]
    split
    · next fname hst ht => exact absurd hflags (hname hst fname ht)
    · rw [← hflags]; exact handOver_unselected hns
  · rw [hexec, dataPacket]
    split
    · next data eof hst ht => exact if_neg (hdata hst data eof ht)
    · exact handOver_unselected hns

/-- Settles O36: a step kind by its state, a received class by its header; a packet kind by the two places where its
packet is built and the one where it is handed over. -/
theorem unselectedInstructionDoesNothing : Obligations.UnselectedInstructionDoesNothing := by
  unfold Obligations.UnselectedInstructionDoesNothing
  rintro s i (⟨hf, hne⟩ | ⟨h, hi, hr⟩ | ⟨h, hi, hsend, hno⟩ | ⟨h, hi, hst, hno⟩ | ⟨h, hi, hst, hno⟩ | ⟨hf, hst⟩)
  · obtain ⟨st, rfl⟩ := exists_stateInstr_of_format hf
    exact exec_stateInstr_unselected (fun h => hne (congrArg stateInstr h))
  · rw [exec_rx hi]
    exact if_neg hr
  · refine exec_tx_unselected hi (fun hs => ?_) (fun hst => ?_) (fun hst => ?_)
    · obtain ⟨-, ht, hh⟩ := sends_iff.1 hs
      exact hno.elim (absurd ht) (absurd hh)
    · rw [hst] at hsend; cases hsend
    · rw [hst] at hsend; cases hsend
  · refine exec_tx_unselected hi (fun hs => ?_) (fun hidle => ?_) (fun _ => hno)
    · have hsend := (sends_iff.1 hs).1
      rw [hst] at hsend; cases hsend
    · rw [hst] at hidle; cases hidle
  · refine exec_tx_unselected hi (fun hs => ?_) (fun _ fname ht => ?_) (fun hload => ?_)
    · have hsend := (sends_iff.1 hs).1
      rw [hst] at hsend; cases hsend
    · exact hno.resolve_right fun hnone => hnone fname ht
    · rw [hst] at hload; cases hload
  · obtain ⟨h, hi⟩ := exists_txHeader_of_format hf
    refine exec_tx_unselected hi (fun hs => ?_) (fun hidle => ?_) (fun hload => ?_)
    · have hsend := (sends_iff.1 hs).1
      revert hst hsend
      cases s.st <;> decide
    · rw [hidle] at hst; exact absurd hst (by decide)
    · rw [hload] at hst; exact absurd hst (by decide)

end Sys2Proof.Machine
end

section
/-! SUPPORT. The family of statements over whole steps and runs (10_state.md sections 3 and 9, 20_memory.md sections 5
and 6, 43_transfer_fsm.md section 5): what a step sends, what it writes, and what a run without reset keeps of it. -/

namespace Sys2Proof.Machine

/-! ## What a step sends and writes -/

/-- Settles O42: of the ways a step has only the packet handed over puts a datagram out. -/
theorem onlyTheStoredPacketIsSent : Obligations.OnlyTheStoredPacketIsSent := by
  unfold Obligations.OnlyTheStoredPacketIsSent
  intro s t bs hstep hout
  rw [step_eq_stateStep] at hstep
  obtain ⟨-, rfl⟩ | ⟨rfl, -⟩ | ⟨fname, -, -, -, rfl⟩ | ⟨data, eof, -, -, -, rfl⟩ | ⟨bs', hsend, ht, hd, rfl⟩ |
    ⟨cause, rfl, -⟩ | ⟨-, -, -, rfl⟩ | ⟨-, -, -, rfl⟩ | ⟨bytes, b, rest, -, -, -, -, rfl⟩ |
    ⟨bytes, b, rest, -, -, -, -, rfl⟩ | ⟨bytes, b, rest, -, -, -, -, rfl⟩ := stateStep_cases hstep
  iterate 4 cases hout
  · obtain rfl : bs = bs' := OutEvent.txSend.inj (List.mem_singleton.1 hout)
    exact ⟨isSend_iff.1 hsend, ht, hd, rfl⟩
  iterate 3 cases hout
  · cases List.mem_singleton.1 hout
  iterate 2 cases hout

/-- Settles O44: the two ways that build a packet take START or CHUNK, the three that capture a header take a
datagram. -/
theorem whoWritesTheBuffers : Obligations.WhoWritesTheBuffers := by
  unfold Obligations.WhoWritesTheBuffers
  intro s t hstep hreset
  rw [step_eq_stateStep] at hstep
  obtain ⟨ht, -⟩ | ⟨rfl, -⟩ | ⟨fname, -, ht, -, rfl⟩ | ⟨data, eof, -, ht, -, rfl⟩ | ⟨bs, -, -, -, rfl⟩ |
    ⟨cause, rfl, -⟩ | ⟨-, -, -, rfl⟩ | ⟨-, -, -, rfl⟩ | ⟨bytes, b, rest, -, ht, -, -, rfl⟩ |
    ⟨bytes, b, rest, -, ht, -, -, rfl⟩ | ⟨bytes, b, rest, -, ht, -, -, rfl⟩ := stateStep_cases hstep
  · exact absurd ht hreset
  · exact ⟨fun _ _ => ⟨rfl, rfl, rfl, rfl, rfl⟩, fun _ => rfl⟩
  · exact ⟨fun hstart _ => absurd ht (hstart fname), fun _ => rfl⟩
  · exact ⟨fun _ hchunk => absurd ht (hchunk data eof), fun _ => rfl⟩
  iterate 4 exact ⟨fun _ _ => ⟨rfl, rfl, rfl, rfl, rfl⟩, fun _ => rfl⟩
  all_goals exact ⟨fun _ _ => ⟨rfl, rfl, rfl, rfl, rfl⟩, fun hdgram => absurd ht (hdgram bytes)⟩

/-! ## The accepted acknowledgment of a data packet (R135) -/

theorem rxHeader_cases {s : State} {h : Header} (hr : s.rxHeader = some h) :
    ∃ bytes b rest, s.st.isWait = true ∧ s.taken = some (.dgram bytes) ∧ splitHeader bytes = some (b, rest) ∧
      decodeHeader b = h := by
  unfold State.rxHeader at hr
  split at hr
  · next hw =>
    split at hr
    · next bytes ht =>
      obtain ⟨⟨b, rest⟩, hs, hb⟩ := Option.map_eq_some_iff.1 hr
      exact ⟨bytes, b, rest, hw, ht, hs, hb⟩
    · cases hr
  · cases hr

theorem acceptsData_iff {s : State} :
    s.acceptsData = true ↔ s.st = .waitDataAck ∧
      ∃ bytes b rest, s.taken = some (.dgram bytes) ∧ splitHeader bytes = some (b, rest) ∧ b.b6 = s.expFlags := by
  rw [State.acceptsData, Bool.and_eq_true, decide_eq_true_eq, decide_eq_true_eq, and_congr_right_iff]
  intro hst
  constructor
  · intro hf
    obtain ⟨h, hr, hf⟩ := Option.map_eq_some_iff.1 hf
    obtain ⟨bytes, b, rest, -, ht, hs, rfl⟩ := rxHeader_cases hr
    exact ⟨bytes, b, rest, ht, hs, hf⟩
  · rintro ⟨bytes, b, rest, ht, hs, hf⟩
    rw [rxHeader_eq (isWait_iff.2 (.inr hst)) ht hs]
    exact congrArg some hf

/-- The step that accepts a data packet's acknowledgment is R135's. -/
theorem step_acceptsData {s : State} (h : s.acceptsData = true) :
    ∃ b : HeaderBytes, step s =
      .next (acceptData { s.consume with rxh := s.rxh.write 0 b.toList, waitTimer := 0 }) := by
  obtain ⟨hst, bytes, b, rest, ht, hs, hf⟩ := acceptsData_iff.1 h
  refine ⟨b, ?_⟩
  rw [step_wait (isWait_iff.2 (.inr hst)), waitStep_match ht hs hf, hst]
  rfl

/-- Settles O45: R135's step changes both, and every other way a step has but reset writes neither. -/
theorem toggleAndCounterOnlyOnDataAck : Obligations.ToggleAndCounterOnlyOnDataAck := by
  unfold Obligations.ToggleAndCounterOnlyOnDataAck
  intro s t hstep hreset
  split
  · next hacc =>
    obtain ⟨b, hb⟩ := step_acceptsData hacc
    obtain rfl := Host.Outcome.next.inj (hb.symm.trans hstep)
    exact ⟨rfl, rfl⟩
  · next hacc =>
    rw [step_eq_stateStep] at hstep
    obtain ⟨ht, -⟩ | ⟨rfl, -⟩ | ⟨fname, -, -, -, rfl⟩ | ⟨data, eof, -, -, -, rfl⟩ | ⟨bs, -, -, -, rfl⟩ |
      ⟨cause, rfl, -⟩ | ⟨-, -, -, rfl⟩ | ⟨-, -, -, rfl⟩ | ⟨bytes, b, rest, -, -, -, -, rfl⟩ |
      ⟨bytes, b, rest, -, -, -, -, rfl⟩ | ⟨bytes, b, rest, hst, ht, hs, hf, rfl⟩ := stateStep_cases hstep
    · exact absurd ht hreset
    iterate 9 exact ⟨rfl, rfl⟩
    exact absurd (acceptsData_iff.2 ⟨hst, bytes, b, rest, ht, hs, hf⟩) hacc

/-! ## Runs -/

/-- A packet is under way in a SEND or WAIT state (R99). -/
def Fsm.inFlight (st : Fsm) : Prop := st.isSend = true ∨ st.isWait = true

/-- No port builds a packet while one is under way. -/
theorem inFlight_refuses_build {s : State} (h : s.st.inFlight) :
    (∀ fname, s.taken ≠ some (.start fname)) ∧ ∀ data eof, s.taken ≠ some (.chunk data eof) := by
  constructor
  · intro fname ht
    rw [(accepts_start_iff.1 (taken_accepted ht)).1] at h
    obtain h | h := h <;> cases h
  · intro data eof ht
    rw [(accepts_chunk_iff.1 (taken_accepted ht)).1] at h
    obtain h | h := h <;> cases h

/-- Between two states in which a packet is under way it is the same packet: nothing is built, and reset would lead
to IDLE. -/
theorem inFlight_keeps_txData {s u : State} (hs : s.st.inFlight) (hu : u.st.inFlight) (hstep : step s = .next u) :
    u.txData = s.txData := by
  have hreset : s.taken ≠ some .reset := by
    intro ht
    obtain rfl := Host.Outcome.next.inj ((step_reset ht).symm.trans hstep)
    obtain hu | hu := hu <;> cases hu
  obtain ⟨hstart, hchunk⟩ := inFlight_refuses_build hs
  obtain ⟨htx, hlen, -⟩ := (whoWritesTheBuffers s u hstep hreset).1 hstart hchunk
  exact txData_congr htx hlen

theorem self_mem_runStates (n : Nat) (s : State) : s ∈ runStates n s := by
  cases n with
  | zero => exact List.mem_singleton.2 rfl
  | succ n =>
    unfold runStates
    split <;> exact List.mem_cons_self

theorem runStates_next (n : Nat) {s u : State} (h : step s = .next u) :
    runStates (n + 1) s = s :: runStates n u := by
  rw [runStates, h]

/-- The packet in TX at the end of a run in which it stays under way is the one at the start. -/
theorem run_keeps_txData {n : Nat} {s t : State} (hrun : core.run n s = .next t)
    (hfly : ∀ v ∈ runStates n s, v.st.inFlight) : t.txData = s.txData := by
  induction n generalizing s with
  | zero => cases hrun; rfl
  | succ n ih =>
    obtain ⟨u, hstep⟩ := run_stop n hrun
    rw [run_next n hstep] at hrun
    rw [runStates_next n hstep, List.forall_mem_cons] at hfly
    obtain ⟨hs, hrest⟩ := hfly
    rw [ih hrun hrest, inFlight_keeps_txData hs (hrest u (self_mem_runStates n u)) hstep]

/-- Settles O43: what leaves at the end is the packet in TX there, which is the packet at the start. -/
theorem retransmissionsAreIdentical : Obligations.RetransmissionsAreIdentical := by
  unfold Obligations.RetransmissionsAreIdentical
  intro n s t u bs hfly hrun hstep hout
  obtain ⟨-, -, hsent, -⟩ := onlyTheStoredPacketIsSent t u bs hstep hout
  have hend : t.txData = .ok bs := hsent
  rw [← run_keeps_txData hrun hfly, hend]

theorem xor_one_toggle (x : BitVec 1) : x ^^^ 1#1 = x + 1#1 := by
  revert x; decide

theorem runAccepted_next (n : Nat) {s u : State} (h : step s = .next u) :
    runAccepted (n + 1) s =
      if s.acceptsData then ((runAccepted n u).1 + 1, (runAccepted n u).2 + s.hdrLen.toNat) else runAccepted n u := by
  rw [runAccepted, h]

/-- Settles O46, by induction on the steps of the run: each adds to the counts what it changes in the two registers. -/
theorem runCountsAcceptedData : Obligations.RunCountsAcceptedData := by
  unfold Obligations.RunCountsAcceptedData
  intro n
  induction n with
  | zero =>
    intro s t _ hrun
    cases hrun
    exact ⟨(BitVec.add_zero _).symm, (BitVec.add_zero _).symm⟩
  | succ n ih =>
    intro s t hnr hrun
    obtain ⟨u, hstep⟩ := run_stop n hrun
    obtain ⟨hreset, hrest⟩ := hnr
    rw [hstep] at hrest
    rw [run_next n hstep] at hrun
    obtain ⟨htoggle, hbytes⟩ := ih u t hrest hrun
    have hchange := toggleAndCounterOnlyOnDataAck s u hstep hreset
    rw [htoggle, hbytes, runAccepted_next n hstep]
    by_cases hacc : s.acceptsData = true
    · rw [if_pos hacc] at hchange ⊢
      obtain ⟨hflip, hadd⟩ := hchange
      rw [hflip, hadd, xor_one_toggle, BitVec.ofNat_add, BitVec.ofNat_add, BitVec.ofNat_toNat]
      constructor <;> ac_rfl
    · rw [if_neg hacc] at hchange ⊢
      obtain ⟨hkeep, hkeep'⟩ := hchange
      rw [hkeep, hkeep']
      exact ⟨rfl, rfl⟩

end Sys2Proof.Machine
end

section
/-! SUPPORT. The family of statements about the invariant (10_state.md section 11), after one lemma for each way a step
has: what it must show of the fields it writes, the rest being the invariant before it. -/

namespace Sys2Proof.Machine

/-- Settles O38: R34's values meet each clause of R35. -/
theorem invariantAtReset : Obligations.InvariantAtReset where
  lenBound := by decide
  flagsReserved := by decide
  timerIffWait := by decide
  timerBound := by decide
  beforeData := fun _ => ⟨rfl, rfl, rfl⟩
  filenameFlags := by decide
  dataPhaseFlags := by decide
  packetInTx := fun h => absurd rfl h
  causeIffFatal := by decide
  causeKnown := by decide
  txWf := by decide
  rxhWf := by decide

theorem inv_resetEngine (s : State) : Inv (resetEngine s) := { invariantAtReset with }

theorem inv_consume {s : State} (h : Inv s) : Inv s.consume := { h with }

/-! ## Consequences of the clauses -/

theorem Inv.timer_zero {s : State} (h : Inv s) (hw : s.st.isWait = false) : s.waitTimer = 0 := by
  by_contra hne
  rw [h.timerIffWait.1 hne] at hw
  cases hw

theorem Inv.cause_zero {s : State} (h : Inv s) (hf : s.st ≠ .fatal) : s.errCause = 0#3 := by
  by_contra hne
  exact hf (h.causeIffFatal.1 hne)

/-! ## Building a packet (R122, R131) -/

theorem inv_buildFilename {s : State} {p : List Byte} (h : Inv s) (hst : s.st = .idle) (hp : p.length ≤ 505) :
    Inv (buildFilename p s) where
  lenBound := by simpa [toNat_payload_length hp] using hp
  flagsReserved := (by decide : Config.fFilename.extractLsb' 3 5 = 0#5)
  timerIffWait := by simp [h.timer_zero (by rw [hst]; rfl), Fsm.isWait]
  timerBound := h.timerBound
  beforeData := fun _ => by
    obtain ⟨htoggle, hbytes, -⟩ := h.beforeData (.inl hst)
    exact ⟨htoggle, hbytes, rfl⟩
  filenameFlags := fun _ => rfl
  dataPhaseFlags := by simp
  packetInTx := fun _ => ⟨p, (toNat_payload_length hp).symm, assemble_txData _ p s hp, rfl⟩
  causeIffFatal := by simp [h.cause_zero (by rw [hst]; nofun)]
  causeKnown := h.causeKnown
  txWf := assemble_wf _ p s hp h.txWf
  rxhWf := h.rxhWf

theorem dataFlags_reserved (toggle : BitVec 1) (eof : Bool) : (dataFlags toggle eof).extractLsb' 3 5 = 0#5 := by
  revert toggle eof; decide

theorem dataFlags_filename (toggle : BitVec 1) (eof : Bool) : (dataFlags toggle eof).getLsbD 0 = false := by
  revert toggle eof; decide

theorem dataFlags_alternating (toggle : BitVec 1) (eof : Bool) :
    (dataFlags toggle eof).getLsbD 1 = !toggle.getLsbD 0 := by
  revert toggle eof; decide

theorem inv_buildData {s : State} {p : List Byte} (eof : Bool) (h : Inv s) (hst : s.st = .loadData)
    (hp : p.length ≤ 505) : Inv (buildData (dataFlags s.toggle eof) p s) where
  lenBound := by simpa [toNat_payload_length hp] using hp
  flagsReserved := dataFlags_reserved s.toggle eof
  timerIffWait := by simp [h.timer_zero (by rw [hst]; rfl), Fsm.isWait]
  timerBound := h.timerBound
  beforeData := by simp
  filenameFlags := by simp
  dataPhaseFlags := fun _ => ⟨dataFlags_filename s.toggle eof, dataFlags_alternating s.toggle eof, rfl⟩
  packetInTx := fun _ => ⟨p, (toNat_payload_length hp).symm, assemble_txData _ p s hp, rfl⟩
  causeIffFatal := by simp [h.cause_zero (by rw [hst]; nofun)]
  causeKnown := h.causeKnown
  txWf := assemble_wf _ p s hp h.txWf
  rxhWf := h.rxhWf

/-! ## While a packet is under way -/

theorem inFlight_ne {st : Fsm} (h : st.inFlight) : st ≠ .idle ∧ st ≠ .fatal := by
  obtain h | h := h <;> cases st <;> simp [Fsm.isSend, Fsm.isWait] at h ⊢

/-- A move of the state register and the timer: the packet under way stays, so what the invariant says of it needs only
that the phase it belongs to stays or is left. -/
theorem inv_move {s : State} {st' : Fsm} {w : Half} {out : List OutEvent} (h : Inv s) (hfly : s.st.inFlight)
    (hidle : st' ≠ .idle) (hfatal : st' ≠ .fatal)
    (hname : st' = .sendFilename ∨ st' = .waitFilenameAck → s.st = .sendFilename ∨ s.st = .waitFilenameAck)
    (hdata : st' = .sendData ∨ st' = .waitDataAck → s.st = .sendData ∨ s.st = .waitDataAck)
    (htimer : w ≠ 0 ↔ st'.isWait) (hbound : w.toNat ≤ 500) :
    Inv { s with st := st', waitTimer := w, out := out } :=
  { h with
    timerIffWait := htimer
    timerBound := hbound
    beforeData := fun hst => h.beforeData (.inr (hname (hst.resolve_left hidle)))
    filenameFlags := fun hst => h.filenameFlags (hname hst)
    dataPhaseFlags := fun hst => h.dataPhaseFlags (hdata hst)
    packetInTx := fun _ => h.packetInTx (inFlight_ne hfly).1
    causeIffFatal := by simp [h.cause_zero (inFlight_ne hfly).2, hfatal] }

/-- Handing the packet over starts the wait of the same phase (R125, R133). -/
theorem inv_send {s : State} {out : List OutEvent} (h : Inv s) (hs : s.st.isSend = true) :
    Inv { s with st := s.st.afterSend, waitTimer := 500#16, out := out } := by
  refine inv_move h (.inl hs) ?_ ?_ ?_ ?_ (iff_of_true (by decide) ?_) (by decide) <;>
    obtain hst | hst := isSend_iff.1 hs <;> simp [hst, Fsm.afterSend, Fsm.isWait]

/-- A wait that retries goes back to its SEND state, with no ticks left (R128, R129, R136, R137). -/
theorem inv_retry {s : State} {out : List OutEvent} (h : Inv s) (hw : s.st.isWait = true) :
    Inv { s with
      st := if s.st = .waitFilenameAck then .sendFilename else .sendData, waitTimer := 0, out := out } := by
  refine inv_move h (.inr hw) ?_ ?_ ?_ ?_ (iff_of_false (by decide) ?_) (by decide) <;>
    obtain hst | hst := isWait_iff.1 hw <;> simp [hst, Fsm.isWait]

/-- A tick with time left counts down and stays above zero (R111). -/
theorem inv_tick {s : State} (h : Inv s) (hw : s.st.isWait = true) (ht : 1 < s.waitTimer.toNat) :
    Inv { s with waitTimer := s.waitTimer - 1 } := by
  have hcount : (s.waitTimer - 1).toNat = s.waitTimer.toNat - 1 :=
    BitVec.toNat_sub_of_le (BitVec.le_def.2 ht.le)
  have hne : s.waitTimer - 1 ≠ 0 := by
    intro hz
    have hzero : (s.waitTimer - 1).toNat = 0 := congrArg _ hz
    omega
  have hbound : s.waitTimer.toNat ≤ 500 := h.timerBound
  obtain ⟨hidle, hfatal⟩ := inFlight_ne (.inr hw)
  exact inv_move (st' := s.st) (out := s.out) h (.inr hw) hidle hfatal id id (iff_of_true hne hw) (by omega)

theorem inv_capture {s : State} (h : Inv s) (b : HeaderBytes) : Inv { s with rxh := s.rxh.write 0 b.toList } :=
  { h with rxhWf := capture_wf b _ h.rxhWf }

theorem inv_acceptFilename {s : State} (h : Inv s) (hst : s.st = .waitFilenameAck) :
    Inv { s with st := .loadData, waitTimer := 0 } :=
  inv_move (out := s.out) h (.inr (isWait_iff.2 (.inl hst))) nofun nofun nofun nofun
    (iff_of_false (by decide) (by decide)) (by decide)

/-- R135 leaves the data phase, so its new toggle meets no clause until the next packet is built. -/
theorem inv_acceptData {s : State} (h : Inv s) (hst : s.st = .waitDataAck) :
    Inv (acceptData { s with waitTimer := 0 }) := by
  have hto := (acceptData_st_cases { s with waitTimer := 0 }).imp_left (·.2)
  obtain hto | hto := hto <;>
    exact { h with
      timerIffWait := iff_of_false (by simp) (by rw [hto]; nofun)
      timerBound := Nat.zero_le _
      beforeData := by rw [hto]; nofun
      filenameFlags := by rw [hto]; nofun
      dataPhaseFlags := by rw [hto]; nofun
      packetInTx := fun _ => h.packetInTx (by rw [hst]; nofun)
      causeIffFatal := iff_of_false (not_not.2 (h.cause_zero (by rw [hst]; nofun))) (by rw [hto]; nofun) }

/-! ## The fatal entry (R156) -/

/-- The causes have the codes 1 to 3 (R151). -/
theorem fatalCause_code_bounds (cause : FatalCause) : cause.code ≠ 0#3 ∧ cause.code.toNat ≤ 3 := by
  cases cause <;> decide

theorem inv_raiseFatal {s : State} (cause : FatalCause) (h : Inv s) (hidle : s.st ≠ .idle) :
    Inv (raiseFatal cause s) :=
  { h with
    timerIffWait := iff_of_false (by simp) nofun
    timerBound := Nat.zero_le _
    beforeData := nofun
    filenameFlags := nofun
    dataPhaseFlags := nofun
    packetInTx := fun _ => h.packetInTx hidle
    causeIffFatal := iff_of_true (fatalCause_code_bounds cause).1 rfl
    causeKnown := (fatalCause_code_bounds cause).2 }

/-- Settles O39: each way a step has keeps the invariant. -/
theorem invariantKeptByStep : Obligations.InvariantKeptByStep := by
  unfold Obligations.InvariantKeptByStep
  intro s t hinv hstep
  have h := inv_consume hinv
  rw [step_eq_stateStep] at hstep
  obtain ⟨-, rfl⟩ | ⟨rfl, -⟩ | ⟨fname, hst, -, hlen, rfl⟩ | ⟨data, eof, hst, -, hlen, rfl⟩ | ⟨bs, hsend, -, -, rfl⟩ |
    ⟨cause, rfl, hcause⟩ | ⟨hwait, -, htime, rfl⟩ | ⟨hwait, -, -, rfl⟩ | ⟨bytes, b, rest, hwait, -, -, -, rfl⟩ |
    ⟨bytes, b, rest, hst, -, -, -, rfl⟩ | ⟨bytes, b, rest, hst, -, -, -, rfl⟩ := stateStep_cases hstep
  · exact inv_resetEngine _
  · exact h
  · exact inv_buildFilename h hst hlen
  · exact inv_buildData eof h hst hlen
  · exact inv_send h hsend
  · refine inv_raiseFatal cause h ?_
    obtain ⟨-, -, hsend⟩ | ⟨-, -, hwait⟩ | ⟨-, -, hst⟩ := hcause
    · exact (inFlight_ne (.inl hsend)).1
    · exact (inFlight_ne (.inr hwait)).1
    · rw [consume_st, hst]; nofun
  · exact inv_tick h hwait htime
  · exact inv_retry (out := []) h hwait
  · exact inv_retry (inv_capture h b) hwait
  · exact inv_acceptFilename (inv_capture h b) hst
  · exact inv_acceptData (inv_capture h b) hst

end Sys2Proof.Machine
end

section
/-! SUPPORT. What the invariant gives (10_state.md sections 7 and 11): the packet in TX can be read and verifies, so no
step stops, and the flags a wait expects are ones the engine sent. -/

namespace Sys2Proof.Machine

/-- Settles O41: what TX holds by the invariant is an assembled packet. -/
theorem packetInTxAlwaysVerifies : Obligations.PacketInTxAlwaysVerifies := by
  unfold Obligations.PacketInTxAlwaysVerifies
  intro s h hst
  obtain ⟨p, hlen, hdata, -⟩ := h.packetInTx hst
  have hp : p.length ≤ 505 := hlen ▸ h.lenBound
  refine ⟨_, hdata, verify_packetBytes hp, ?_⟩
  rw [packetBytes_length]
  omega

theorem exists_sendStep_next {s : State} (h : s.taken = some .txOk → ∃ bs, s.txData = .ok bs) :
    ∃ t, sendStep s = .next t := by
  unfold sendStep
  split
  · exact ⟨_, rfl⟩
  · next ht =>
    obtain ⟨bs, hd⟩ := h ht
    have hread : s.consume.txData = .ok bs := hd
    exact ⟨_, sendPacket_ok hread⟩
  · exact ⟨_, rfl⟩
  · exact ⟨_, rfl⟩

/-- Only handing a packet over can stop a step, and only where TX does not hold the packet. -/
theorem exists_step_next {s : State} (h : s.taken = some .txOk → ∃ bs, s.txData = .ok bs) :
    ∃ t, step s = .next t := by
  rw [step_eq_stateStep, exec_stateInstr]
  cases s.st with
  | idle => show ∃ t, idleStep s = _; unfold idleStep; split <;> exact ⟨_, rfl⟩
  | sendFilename | sendData => exact exists_sendStep_next h
  | waitFilenameAck | waitDataAck => show ∃ t, waitStep s = _; unfold waitStep; split <;> exact ⟨_, rfl⟩
  | loadData => show ∃ t, loadStep s = _; unfold loadStep; split <;> exact ⟨_, rfl⟩
  | terminated | fatal => show ∃ t, absorbingStep s = _; unfold absorbingStep; split <;> exact ⟨_, rfl⟩

/-- Settles O40: `tx.OK` is taken in a SEND state, where the packet in TX can be read. -/
theorem invariantStepNeverStops : Obligations.InvariantStepNeverStops := by
  unfold Obligations.InvariantStepNeverStops
  intro s h
  refine exists_step_next fun ht => ?_
  have hsend : s.st.isSend = true := taken_accepted ht
  obtain ⟨p, -, hdata, -⟩ := h.packetInTx (inFlight_ne (.inl hsend)).1
  exact ⟨_, hdata⟩

/-- A flags byte with the reserved bits and FILENAME clear is that of a data packet (R65, R66). -/
theorem rxOtherFlagsOk_of_data_flags {f : Byte} (hreserved : f.extractLsb' 3 5 = 0#5) (hname : f.getLsbD 0 = false) :
    rxOtherFlagsOk f = false := by
  revert f; decide

/-- The flags a wait expects are 0x00 or a data packet's, so no header of class RX.OTHER has them (log entry 12). -/
theorem Inv.expFlags_not_other {s : State} (h : Inv s) (hw : s.st.isWait = true) :
    rxOtherFlagsOk s.expFlags = false := by
  obtain hst | hst := isWait_iff.1 hw
  · rw [(h.beforeData (.inr (.inr hst))).2.2]
    rfl
  · obtain ⟨hname, -, hexp⟩ := h.dataPhaseFlags (.inr hst)
    rw [hexp]
    exact rxOtherFlagsOk_of_data_flags h.flagsReserved hname

/-- Settles O24: the flags differ from those expected, so the waiter retries. -/
theorem otherClassIsNeverAccepted : Obligations.OtherClassIsNeverAccepted := by
  unfold Obligations.OtherClassIsNeverAccepted
  intro s c l f hinv hwf hr
  obtain ⟨bytes, b, rest, hw, ht, hs, hb⟩ := rxHeader_cases hr
  have hflags : b.b6 = f := congrArg Header.flags hb
  have hne : b.b6 ≠ s.expFlags := by
    intro heq
    have hother : rxOtherFlagsOk f = true := hwf
    rw [← hflags, heq, hinv.expFlags_not_other hw] at hother
    cases hother
  have hexec : exec (.rxOther c l f) s = waitStep s := by
    rw [exec_rx rfl, ← hb, receiveHeader_dgram hw ht hs, waitStep_header ht hs]
  refine ⟨_, hexec.trans (waitStep_mismatch ht hs hne), by rw [hflags], rfl, rfl, ?_⟩
  obtain hst | hst := isWait_iff.1 hw
  · exact .inl (if_pos hst)
  · exact .inr (if_neg (by rw [hst]; nofun))

end Sys2Proof.Machine
end

section
/-! SUPPORT. The statements about the ticks of a whole wait and about two datagrams with one flags byte
(42_ack_waiter.md, 95_test_vectors.md section 2.5). -/

namespace Sys2Proof.Machine

/-! ## The ticks of a wait (R111, R112) -/

/-- A tick presented alone with ticks left only counts down. -/
theorem step_tick {s : State} {os : List Offer} (hw : s.st.isWait = true) (hin : s.inputs = [.tick] :: os)
    (ht : 1 < s.waitTimer.toNat) :
    step s = .next { s with waitTimer := s.waitTimer - 1, inputs := os, out := [] } := by
  have htaken : s.taken = some .tick := taken_single hin
  rw [step_wait hw, waitStep_tick htaken ht, consume_single hin]

/-- The last tick presented alone ends the wait. -/
theorem step_lastTick {s : State} {os : List Offer} (hw : s.st.isWait = true) (hin : s.inputs = [.tick] :: os)
    (ht : s.waitTimer.toNat ≤ 1) :
    step s = .next { s with
      waitTimer := 0, inputs := os, out := [],
      st := if s.st = .waitFilenameAck then .sendFilename else .sendData } := by
  have htaken : s.taken = some .tick := taken_single hin
  rw [step_wait hw, waitStep_lastTick htaken ht, consume_single hin]

theorem toNat_sub_one {t : Half} {w : Nat} (h : t.toNat = w + 1) : (t - 1).toNat = w := by
  have hle : 1 ≤ t := BitVec.le_def.2 (by rw [h]; exact Nat.succ_pos w)
  rw [BitVec.toNat_sub_of_le hle, h]
  rfl

/-- Fewer ticks than are left only count down. -/
theorem run_ticks {k w : Nat} {s : State} {rest : List Offer} (hw : s.st.isWait = true)
    (ht : s.waitTimer.toNat = k + 1 + w) (hpos : 0 < w)
    (hin : s.inputs = List.replicate (k + 1 + w) [.tick] ++ rest) :
    core.run (k + 1) s = .next { s with
      waitTimer := BitVec.ofNat 16 w, inputs := List.replicate w [.tick] ++ rest, out := [] } := by
  induction k generalizing s with
  | zero =>
    have hdown : s.waitTimer - 1 = BitVec.ofNat 16 w := by
      rw [← toNat_sub_one (t := s.waitTimer) (w := w) (by omega), BitVec.ofNat_toNat, BitVec.setWidth_eq]
    rw [show 0 + 1 + w = w + 1 by omega, List.replicate_succ, List.cons_append] at hin
    rw [run_next 0 (step_tick hw hin (by omega)), hdown]
    rfl
  | succ k ih =>
    rw [show k + 1 + 1 + w = (k + 1 + w) + 1 by omega] at hin ht
    rw [List.replicate_succ, List.cons_append] at hin
    rw [run_next (k + 1) (step_tick hw hin (by omega)),
      ih (s := { s with waitTimer := s.waitTimer - 1, inputs := _, out := [] }) hw (toNat_sub_one ht) rfl]

/-- As many ticks as are left end the wait. -/
theorem run_allTicks {w : Nat} {s : State} {rest : List Offer} (hw : s.st.isWait = true)
    (ht : s.waitTimer.toNat = w + 1) (hin : s.inputs = List.replicate (w + 1) [.tick] ++ rest) :
    core.run (w + 1) s = .next { s with
      waitTimer := 0, inputs := rest, out := [],
      st := if s.st = .waitFilenameAck then .sendFilename else .sendData } := by
  induction w generalizing s with
  | zero => exact run_next 0 (step_lastTick hw hin ht.le)
  | succ w ih =>
    rw [List.replicate_succ, List.cons_append] at hin
    rw [run_next (w + 1) (step_tick hw hin (by omega)),
      ih (s := { s with waitTimer := s.waitTimer - 1, inputs := _, out := [] }) hw (toNat_sub_one ht) rfl]

/-- Settles O47, by induction on the ticks. -/
theorem deadlineIsCountedOut : Obligations.DeadlineIsCountedOut := by
  unfold Obligations.DeadlineIsCountedOut
  intro s w k rest hw ht hpos hin
  constructor
  · intro hk hlt
    obtain ⟨j, rfl⟩ : ∃ j, k = j + 1 := ⟨k - 1, by omega⟩
    obtain ⟨d, rfl⟩ : ∃ d, w = j + 1 + d := ⟨w - (j + 1), by omega⟩
    rw [Nat.add_sub_cancel_left]
    exact run_ticks hw ht (by omega) hin
  · obtain ⟨v, rfl⟩ : ∃ v, w = v + 1 := ⟨w - 1, by omega⟩
    exact run_allTicks hw ht hin

/-! ## Two datagrams with one flags byte (R114, R154) -/

theorem exists_splitHeader {bytes : List Byte} (h : 7 ≤ bytes.length) :
    ∃ b rest, splitHeader bytes = some (b, rest) := by
  cases hs : splitHeader bytes with
  | none => exact absurd (splitHeader_none_iff.1 hs) (by omega)
  | some q => exact ⟨q.1, q.2, rfl⟩

theorem getElem?_six_of_splitHeader {bytes rest : List Byte} {b : HeaderBytes}
    (h : splitHeader bytes = some (b, rest)) : bytes[6]? = some b.b6 := by
  rw [splitHeader_some h]
  rfl

/-- Two headers with one flags byte have one outcome, which leads to one state but for the header captured. -/
theorem waitResult_awaitHeader_congr {b b' : HeaderBytes} (h : b.b6 = b'.b6) (st : Fsm) (s : State) :
    { waitResult st (awaitHeader b s) with rxh := (waitResult st (awaitHeader b' s)).rxh } =
      waitResult st (awaitHeader b' s) := by
  obtain ⟨hf, hb⟩ | ⟨hf, hb⟩ := awaitHeader_cases b s <;>
    obtain ⟨hf', hb'⟩ | ⟨hf', hb'⟩ := awaitHeader_cases b' s
  · rw [hb, hb']; cases st <;> rfl
  · exact absurd (h.symm.trans hf) hf'
  · exact absurd (h.trans hf') hf
  · rw [hb, hb', h]; cases st <;> rfl

/-- Settles O49: the outcome and what it leads to depend on the flags byte, RXH alone on the rest. -/
theorem onlyTheFlagsByteMatters : Obligations.OnlyTheFlagsByteMatters := by
  unfold Obligations.OnlyTheFlagsByteMatters
  intro s t u x y rest hw hx hy hsame ht hu
  obtain ⟨b, rx, hbx⟩ := exists_splitHeader hx
  obtain ⟨b', ry, hby⟩ := exists_splitHeader hy
  have hflags : b.b6 = b'.b6 := by
    rw [getElem?_six_of_splitHeader hbx, getElem?_six_of_splitHeader hby] at hsame
    exact Option.some.inj hsame
  have hstep {bytes tail : List Byte} {b : HeaderBytes} (hb : splitHeader bytes = some (b, tail)) :
      step { s with inputs := [.dgram bytes] :: rest } =
        .next (waitResult s.st (awaitHeader b { s with inputs := rest, out := [] })) := by
    have hwait : step { s with inputs := [.dgram bytes] :: rest } = waitStep _ := step_wait hw
    rw [hwait, waitStep_header (taken_placed (e := .dgram bytes) hw rest) hb, consume_single rfl]
  obtain rfl := Host.Outcome.next.inj ((hstep hbx).symm.trans ht)
  obtain rfl := Host.Outcome.next.inj ((hstep hby).symm.trans hu)
  exact waitResult_awaitHeader_congr hflags s.st _

end Sys2Proof.Machine
end

section
/-! SUPPORT. The statement about a table word placed for the next step (30_encoding.md section 6, log entry 4), after
the word's bytes as a header, what each kind of bits makes a step fetch, and what each placement puts in the state. -/

namespace Sys2Proof

/-! ## The bits of a table word (R61) -/

/-- A byte cut from a number is cut from the field of it that covers the byte. -/
theorem extract_byte_ofNat (n k w : Nat) (h : k + 8 ≤ n) :
    (BitVec.ofNat n w).extractLsb' k 8 = BitVec.ofNat 8 (w / 2 ^ k) := by
  refine BitVec.eq_of_getLsbD_eq fun i hi => ?_
  have hin : k + i < n := by omega
  simp only [BitVec.getLsbD_extractLsb', BitVec.getLsbD_ofNat, Nat.testBit_div_two_pow, hi, hin, Nat.add_comm i k,
    decide_true, Bool.true_and]

/-- The 56 bits of a word, byte by byte, are those of its header. -/
theorem bytesOfWord_eq (w : Nat) : bytesOfWord w = (encodeHeader (headerOfWord w)).toList := by
  simp only [bytesOfWord, encodeHeader, headerOfWord, HeaderBytes.toList]
  rw [extract_byte_ofNat 32 24 _ (by decide), extract_byte_ofNat 32 16 _ (by decide),
    extract_byte_ofNat 32 8 _ (by decide), extract_byte_ofNat 32 0 _ (by decide),
    extract_byte_ofNat 16 8 _ (by decide), extract_byte_ofNat 16 0 _ (by decide)]
  simp only [Nat.div_div_eq_div_mul]
  rfl

theorem decodeOnly_some_iff {f : Format} {bs : List Byte} {i : Instr} :
    decodeOnly f bs = some i ↔ ∃ rest, decode f bs = .ok (i, rest) := by
  unfold decodeOnly
  cases decode f bs with
  | error e => simp
  | ok q => simp [Prod.ext_iff]

theorem decodeOnly_tx_word {w : Nat} {i : Instr} (h : decodeOnly .txHdr56 (bytesOfWord w) = some i) :
    decodeTx (headerOfWord w) = .ok i := by
  obtain ⟨rest, hd⟩ := decodeOnly_some_iff.1 h
  rw [bytesOfWord_eq] at hd
  obtain ⟨b, hs, hi⟩ := decode_tx_some hd
  obtain rfl : encodeHeader (headerOfWord w) = b := congrArg Prod.fst (Option.some.inj hs)
  rwa [decodeHeader_encodeHeader] at hi

theorem decodeOnly_rx_word (w : Nat) :
    decodeOnly .rxHdr56 (bytesOfWord w) = some (decodeRx (headerOfWord w)) := by
  refine decodeOnly_some_iff.2 ⟨[], ?_⟩
  rw [bytesOfWord_eq, decode_rx, decodeHeader_encodeHeader]

/-- A word of at most 8 bits is the state code in its low three bits (log entry 15). -/
theorem decodeOnly_st_word {w : Nat} {i : Instr} (hw : w < 2 ^ 8) (h : decodeOnly .st3 [BitVec.ofNat 8 w] = some i) :
    decodeSt (BitVec.ofNat 3 w) = i := by
  obtain ⟨rest, hd⟩ := decodeOnly_some_iff.1 h
  obtain ⟨c, hbyte, rfl⟩ := decode_st_some hd
  have hval : (BitVec.ofNat 8 w).toNat = (c.setWidth 8 : Byte).toNat := congrArg _ (List.head_eq_of_cons_eq hbyte)
  rw [BitVec.toNat_ofNat, BitVec.toNat_setWidth, Nat.mod_eq_of_lt hw, Nat.mod_eq_of_lt (c.isLt.trans (by decide))]
    at hval
  rw [hval, BitVec.ofNat_toNat, BitVec.setWidth_eq]

/-- A transmit row is well formed where its header's length is (R62). -/
theorem wf_of_txHeader {i : Instr} {h : Header} (hi : i.txHeader = some h) : i.wf = txLengthOk h.length := by
  cases i with
  | fname c l | dataA c l | data c l | dataAF c l | dataF c l => cases hi; rfl
  | _ => cases hi

namespace Machine

/-! ## What a step fetches -/

theorem fetch_of_tick {s : State} (ht : s.taken = some .tick) : fetch s = stateInstr s.st := by
  obtain ⟨bs, -, ht', -⟩ | ⟨bytes, b, rest, -, ht', -⟩ | hbits := fetchBits_cases s
  · rw [ht] at ht'; cases ht'
  · rw [ht] at ht'; cases ht'
  · rw [fetch, hbits, decode_code]

theorem fetch_of_txOk {s : State} {h : Header} {i : Instr} (hs : s.st.isSend = true) (ht : s.taken = some .txOk)
    (hm : memRead .tx s.tx 0 7 = .ok (encodeHeader h).toList) (hi : decodeTx h = .ok i) : fetch s = i := by
  have hv : s.txValid = true := hs
  have hbits : fetchBits s = (.txHdr56, (encodeHeader h).toList) := by
    simp only [fetchBits, hv, ht, headerLength_eq, hm]
  rw [← decodeHeader_encodeHeader h] at hi
  rw [fetch, hbits, decode_tx hi]

theorem fetch_of_header {s : State} {bytes rest : List Byte} {b : HeaderBytes} (hw : s.st.isWait = true)
    (ht : s.taken = some (.dgram bytes)) (hs : splitHeader bytes = some (b, rest)) :
    fetch s = decodeRx (decodeHeader b) := by
  have hr : s.rxReady = true := hw
  have hbits : fetchBits s = (.rxHdr56, b.toList) := by
    simp only [fetchBits, hr, ht, hs]
  rw [fetch, hbits, decode_rx]

/-! ## A state code, a received and a transmit header placed -/

theorem taken_of_single {s : State} {e : Event} {rest : List Offer} (hin : s.inputs = [e] :: rest)
    (hacc : accepts s.st e = true) : s.taken = some e :=
  (taken_single hin).trans (if_pos hacc)

theorem code_ofCode (c : BitVec 3) : (Fsm.ofCode c).code = c := by
  revert c; decide

theorem placeState_runs (s : State) (c : BitVec 3) :
    fetch (placeState s c) = decodeSt c ∧ ∃ t, step (placeState s c) = .next t := by
  have ht : (placeState s c).taken = some .tick := taken_of_single rfl rfl
  constructor
  · rw [fetch_of_tick ht]
    exact congrArg decodeSt (code_ofCode c)
  · exact exists_step_next fun h => by rw [ht] at h; cases h

theorem placeReceive_runs (s : State) (h : Header) :
    fetch (placeReceive s h) = decodeRx h ∧ ∃ t, step (placeReceive s h) = .next t := by
  have ht : (placeReceive s h).taken = some (.dgram (encodeHeader h).toList) := taken_of_single rfl rfl
  constructor
  · rw [fetch_of_header (b := encodeHeader h) (rest := []) rfl ht rfl, decodeHeader_encodeHeader]
  · exact exists_step_next fun hok => by rw [ht] at hok; cases hok

theorem placeTransmit_isSend (s : State) (h : Header) : (placeTransmit s h).st.isSend = true := by
  show Fsm.isSend (if _ then _ else _) = true
  split <;> rfl

/-- The packet placed is the header and its payload of zeros, as long as TX takes. -/
theorem memRead_placeTransmit (s : State) (h : Header) :
    memRead .tx (placeTransmit s h).tx 0 (7 + min h.length.toNat 505) =
      .ok ((encodeHeader h).toList ++ List.replicate (min h.length.toNat 505) 0x00#8) := by
  have hlen : ((encodeHeader h).toList ++ List.replicate (min h.length.toNat 505) 0x00#8).length =
      7 + min h.length.toNat 505 := by
    rw [List.length_append, toList_length, List.length_replicate]
  rw [← hlen]
  exact memRead_write s.tx 0 _ (by rw [maxPayload_eq, hlen, size_tx]; omega)

theorem placeTransmit_runs (s : State) {h : Header} {i : Instr} (hi : decodeTx h = .ok i) (hwf : i.wf = true) :
    fetch (placeTransmit s h) = i ∧ ∃ t, step (placeTransmit s h) = .next t := by
  have hread := memRead_placeTransmit s h
  constructor
  · have ht : (placeTransmit s h).taken = some .txOk := taken_of_single rfl (placeTransmit_isSend s h)
    exact fetch_of_txOk (placeTransmit_isSend s h) ht (memRead_take hread (Nat.le_add_right 7 _)) hi
  · have hfits : h.length.toNat ≤ 505 := by
      rw [wf_of_txHeader (decodeTx_header hi)] at hwf
      exact of_decide_eq_true hwf
    rw [Nat.min_eq_left hfits] at hread
    exact exists_step_next fun _ => ⟨_, hread⟩

/-- Settles O6: a word is read as a state code, a transmit header or else a received one, and placed as such. -/
theorem placedWordIsFetchedAndRuns : Obligations.PlacedWordIsFetchedAndRuns := by
  unfold Obligations.PlacedWordIsFetchedAndRuns
  intro s nbits w i hd hwf
  rw [State.withFetchWord, placeWord]
  unfold decodeTableWord at hd
  by_cases hcode : nbits ≤ 8
  · rw [if_pos hcode] at hd ⊢
    obtain ⟨hw, hd⟩ := Option.ite_none_right_eq_some.1 hd
    rw [← decodeOnly_st_word hw hd]
    exact placeState_runs s _
  · rw [if_neg hcode] at hd ⊢
    obtain ⟨-, hd⟩ := Option.ite_none_right_eq_some.1 hd
    obtain ⟨-, hd⟩ := Option.ite_none_right_eq_some.1 hd
    cases htx : decodeOnly .txHdr56 (bytesOfWord w) with
    | some j =>
      simp only [htx, Option.some.injEq] at hd ⊢
      subst hd
      exact placeTransmit_runs s (decodeOnly_tx_word htx) hwf
    | none =>
      simp only [htx, decodeOnly_rx_word, Option.some.injEq] at hd ⊢
      rw [← hd]
      exact placeReceive_runs s _

end Machine

end Sys2Proof
end
